-- ==== Sys2Proof/Word.lean ====
section
/-! DEFINITION. The word types of the engine: every register, cell, address and operand is one byte. -/

namespace Sys2Proof

/-- A byte: a memory cell, a general register, an operand, an address (10_state.md R11, 20_memory.md R30). Addition,
subtraction and multiplication of bytes wrap modulo 256: the `+8`, `-8`, `*8` of 00_scope.md R8. -/
abbrev Byte := BitVec 8

/-- The index of a general register, 0 to 7 (10_state.md R11). -/
abbrev RegIdx := Fin 8

end Sys2Proof
end

