-- ==== Sys2Proof/Config.lean ====
section
/-! DEFINITION. What an implementation fixes: the parameters of 00_scope.md R5 (Table P1) and R6 (Table P2). -/

namespace Sys2Proof

/-- Number of memory cells (`MEM_SIZE`, 00_scope.md R5). -/
def Config.memSize : Nat := 256

/-- The general register CALL and RET use as their stack pointer (`SP_REG`, 00_scope.md R5; 10_state.md R12). -/
def Config.spReg : RegIdx := 7

/-- Reset value of the scalar `sp` (`SP_RESET`, 00_scope.md R5). -/
def Config.spReset : Byte := 0x07

/-- Reset value of every general register (`REG_RESET`, 00_scope.md R5). -/
def Config.regReset : Byte := 0x00

/-- What every cell holds at reset, and so what a cell that nothing has written reads as (`MEM_RESET`, 00_scope.md R5). -/
def Config.memReset : Byte := 0x00

/-- Address of the first byte `load` writes (`LOAD_BASE`, 00_scope.md R5). -/
def Config.loadBase : Nat := 0

/-- Reset value of `pc` (`PC_RESET`, 00_scope.md R6). UNVERIFIED, unsafe: the spec's decision D5 (log entry 4). -/
def Config.pcReset : Byte := 0x00

/-- The 13 opcode bytes `OPC_*`. The spec leaves their values open and makes them an argument of the model
(00_scope.md R6, 92_eei_decisions.md D7; log entry 1). -/
structure Opcodes where
  ldi : Byte
  prn : Byte
  push : Byte
  pop : Byte
  mul : Byte
  add : Byte
  cmp : Byte
  call : Byte
  ret : Byte
  jmp : Byte
  jeq : Byte
  jne : Byte
  hlt : Byte
  deriving DecidableEq, Repr

/-- The 13 opcode bytes in the order of Table E2 (30_encoding.md R57). -/
def Opcodes.toList (opc : Opcodes) : List Byte :=
  [opc.ldi, opc.prn, opc.push, opc.pop, opc.mul, opc.add, opc.cmp, opc.call, opc.ret, opc.jmp, opc.jeq, opc.jne, opc.hlt]

/-- The one constraint on the opcode bytes: they are pairwise distinct (00_scope.md R6, 30_encoding.md R58). -/
abbrev Opcodes.Distinct (opc : Opcodes) : Prop := opc.toList.Nodup

end Sys2Proof
end

