-- ==== Sys2Proof/Syntax.lean ====
section
/-! DEFINITION. The instructions (30_encoding.md R57, Table E2) and the fetch slot they are read from. -/

namespace Sys2Proof

/-- An instruction with its operand bytes as fetched. A register operand is the whole operand byte, so that a byte above
7, which names no register, is a term of this type too: it is ill-formed, and running it raises `RegIndexOutOfRange`
(30_encoding.md R55). -/
inductive Instr where
  /-- LDI a,b: load the immediate byte `b` into register `a` (R80). -/
  | ldi (a b : Byte)
  /-- PRN a: emit register `a` (R81). -/
  | prn (a : Byte)
  /-- PUSH a: push register `a` through the scalar stack pointer (R85). -/
  | push (a : Byte)
  /-- POP a: pop into register `a` through the scalar stack pointer (R86). -/
  | pop (a : Byte)
  /-- MUL a,b (R93). -/
  | mul (a b : Byte)
  /-- ADD a,b (R94). -/
  | add (a b : Byte)
  /-- CMP a,b (R95). -/
  | cmp (a b : Byte)
  /-- CALL a: call the address in register `a` (R100). -/
  | call (a : Byte)
  /-- RET (R101). -/
  | ret
  /-- JMP a: jump to the address in register `a` (R103). -/
  | jmp (a : Byte)
  /-- JEQ a: jump if Equal (R104). -/
  | jeq (a : Byte)
  /-- JNE a: jump if not Equal (R105). -/
  | jne (a : Byte)
  /-- HLT (R110). -/
  | hlt
  deriving DecidableEq, Repr

/-- The three bytes latched at every fetch: `IR`, `a`, `b` (10_state.md R25). They live within one step only. -/
structure Slot where
  ir : Byte
  a : Byte
  b : Byte
  deriving DecidableEq, Repr

/-- Why a slot holds no instruction. -/
inductive DecodeError where
  /-- The opcode byte is none of the 13 (30_encoding.md R60). -/
  | unsupportedOpcode (ir : Byte)
  deriving DecidableEq, Repr

end Sys2Proof
end

