-- ==== Sys2Proof/Machine/State.lean ====
section
/-! DEFINITION. The state of the engine (10_state.md), its value after reset, and the reasons a step can stop. -/

namespace Sys2Proof.Machine

/-- The memory array (20_memory.md R30) as the list of the cells that differ from the reset value, by rising address. -/
abbrev Memory := List Host.Cell

/-- The canonical form of a memory: addresses strictly rising and inside 0..255, and no cell listed that holds what an
unlisted cell reads as. Equal memories are then equal lists (log entry 13). -/
abbrev Memory.wf (m : Memory) : Prop :=
  m.Pairwise (fun c d => c.1 < d.1) ∧ ∀ c ∈ m, c.1 < Config.memSize ∧ c.2 ≠ Config.memReset

/-- The flag register: Greater, Less, Equal, three booleans and no byte (10_state.md R17). -/
structure Flags where
  g : Bool
  l : Bool
  e : Bool
  deriving DecidableEq, Repr

/-- The three fault causes (60_exceptions.md R125). -/
inductive FaultCause where
  /-- The opcode byte is none of the 13 (R126). -/
  | unsupportedOpcode
  /-- The ALU was asked for an operation it does not have (R127). -/
  | unsupportedAluOp
  /-- A register-index operand byte is above 7 (R128). -/
  | regIndexOutOfRange
  deriving DecidableEq, Repr

/-- What a fault records: the address of the faulting instruction and the three bytes latched at its fetch
(60_exceptions.md R133). -/
structure FaultInfo where
  pc : Byte
  ir : Byte
  a : Byte
  b : Byte
  deriving DecidableEq, Repr

/-- The run status (10_state.md R22). -/
inductive Status where
  | running
  | halted
  | faulted (cause : FaultCause) (info : FaultInfo)
  deriving DecidableEq, Repr

/-- The whole architectural state (10_state.md R10, Table S1). -/
structure State where
  /-- The 256 memory cells (20_memory.md R30). -/
  mem : Memory
  /-- The eight general registers (10_state.md R11). -/
  x : Vector Byte 8
  /-- The program counter (10_state.md R14). -/
  pc : Byte
  /-- The scalar stack pointer of PUSH and POP (10_state.md R20). -/
  sp : Byte
  /-- The flag register (10_state.md R17). -/
  fl : Flags
  /-- The run status (10_state.md R22). -/
  status : Status
  /-- Every value emitted by PRN so far, oldest first (10_state.md R26). -/
  out : List Byte
  deriving DecidableEq, Repr

/-- The reasons the model stops. Neither is one of the engine's faults, which are states (`Status.faulted`): the spec
gives a state that is not Running no step (10_state.md R23; log entry 7). -/
inductive Fault where
  /-- Raised by the step function in a Halted state; safe: nothing follows a stop, and the spec has no step there. -/
  | haltedHasNoStep
  /-- Raised by the step function in a Faulted state; safe, for the same reason. -/
  | faultedHasNoStep
  deriving DecidableEq, Repr

/-- The reasons the model refuses an instruction. -/
inductive Refusal where
  /-- Answered by `exec` for an instruction without a meaning; safe: nothing can be proved past a refusal. No arm
  answers it. -/
  | notModelled (mnemonic : String)
  deriving DecidableEq, Repr

/-- The machine right after reset (10_state.md R28; 70_reset_and_hazards.md R145, Table Z1). UNVERIFIED, unsafe: the
values of `pc` and `fl` are the spec's decisions D5 and D6 (log entry 4). -/
def State.reset : State where
  mem := []
  x := Vector.replicate 8 Config.regReset
  pc := Config.pcReset
  sp := Config.spReset
  fl := ⟨false, false, false⟩
  status := .running
  out := []

end Sys2Proof.Machine
end

