-- ==== Sys2Proof/Machine/Flags.lean ====
section
/-! DEFINITION. The flag computation of CMP and the conditions of the conditional jumps. -/

namespace Sys2Proof.Machine

/-- The flags CMP leaves: all false, then exactly one set by the unsigned order of the two values (43_alu.md R92, R95). -/
def compareFlags (va vb : Byte) : Flags :=
  if vb.toNat < va.toNat then ⟨true, false, false⟩
  else if va.toNat < vb.toNat then ⟨false, true, false⟩
  else ⟨false, false, true⟩

/-- The condition JEQ tests (44_control_transfer.md R104). -/
def jeqTaken (f : Flags) : Bool := f.e

/-- The condition JNE tests (44_control_transfer.md R105). -/
def jneTaken (f : Flags) : Bool := !f.e

end Sys2Proof.Machine
end

