-- ==== Sys2Proof/WellFormed.lean ====
section
/-! DEFINITION. Which instructions have only register operands that name a register (30_encoding.md R55). -/

namespace Sys2Proof

/-- An operand byte that names a register: `v <= 7`, the whole byte compared (30_encoding.md R55). -/
def isRegByte (v : Byte) : Bool := decide (v.toNat ≤ 7)

/-- Every operand byte that Table E2 marks "register" names a register; LDI's `b` is an immediate and is never checked
(30_encoding.md R54, R55, R56). -/
def Instr.wellFormed : Instr → Bool
  | .ldi a _ => isRegByte a
  | .prn a => isRegByte a
  | .push a => isRegByte a
  | .pop a => isRegByte a
  | .mul a b => isRegByte a && isRegByte b
  | .add a b => isRegByte a && isRegByte b
  | .cmp a b => isRegByte a && isRegByte b
  | .call a => isRegByte a
  | .ret => true
  | .jmp a => isRegByte a
  | .jeq a => isRegByte a
  | .jne a => isRegByte a
  | .hlt => true

end Sys2Proof
end

