-- ==== Sys2Proof/Decode.lean ====
section
/-! DEFINITION. The opcode map, the decoder and the encoder (30_encoding.md). -/

namespace Sys2Proof

/-- The default opcode bytes of Table E2 (30_encoding.md R57), the LS-8 values. PRESUMED, unsafe: the spec itself takes
them from general knowledge (93_implementation_defined.md G1; log entry 1). -/
def defaultOpcodes : Opcodes where
  ldi := 0x82
  prn := 0x47
  push := 0x45
  pop := 0x46
  mul := 0xA2
  add := 0xA0
  cmp := 0xA7
  call := 0x50
  ret := 0x11
  jmp := 0x54
  jeq := 0x55
  jne := 0x56
  hlt := 0x01

/-- Decode a fetched slot. `OPC_HLT` is compared first, then the dispatch map; a byte that is none of the 13 is refused by
name; only `IR` decides (30_encoding.md R58, R59, R60, R62; 40_execute_loop.md R70, R72). -/
def decode (opc : Opcodes) (w : Slot) : Except DecodeError Instr :=
  if w.ir = opc.hlt then .ok .hlt
  else if w.ir = opc.ldi then .ok (.ldi w.a w.b)
  else if w.ir = opc.prn then .ok (.prn w.a)
  else if w.ir = opc.push then .ok (.push w.a)
  else if w.ir = opc.pop then .ok (.pop w.a)
  else if w.ir = opc.mul then .ok (.mul w.a w.b)
  else if w.ir = opc.add then .ok (.add w.a w.b)
  else if w.ir = opc.cmp then .ok (.cmp w.a w.b)
  else if w.ir = opc.call then .ok (.call w.a)
  else if w.ir = opc.ret then .ok .ret
  else if w.ir = opc.jmp then .ok (.jmp w.a)
  else if w.ir = opc.jeq then .ok (.jeq w.a)
  else if w.ir = opc.jne then .ok (.jne w.a)
  else .error (.unsupportedOpcode w.ir)

/-- The bytes of an instruction, lowest address first (30_encoding.md R50, R51). -/
def encode (opc : Opcodes) : Instr → List Byte
  | .ldi a b => [opc.ldi, a, b]
  | .prn a => [opc.prn, a]
  | .push a => [opc.push, a]
  | .pop a => [opc.pop, a]
  | .mul a b => [opc.mul, a, b]
  | .add a b => [opc.add, a, b]
  | .cmp a b => [opc.cmp, a, b]
  | .call a => [opc.call, a]
  | .ret => [opc.ret]
  | .jmp a => [opc.jmp, a]
  | .jeq a => [opc.jeq, a]
  | .jne a => [opc.jne, a]
  | .hlt => [opc.hlt]

/-- The length of an instruction in bytes (30_encoding.md R52, R57 Table E2, R66). -/
def Instr.width : Instr → Nat
  | .ldi _ _ => 3
  | .prn _ => 2
  | .push _ => 2
  | .pop _ => 2
  | .mul _ _ => 3
  | .add _ _ => 3
  | .cmp _ _ => 3
  | .call _ => 2
  | .ret => 1
  | .jmp _ => 2
  | .jeq _ => 2
  | .jne _ => 2
  | .hlt => 1

/-- The slot that a sequence of bytes in memory order gives, a missing byte read as 0. -/
def slotOfBytes (bytes : List Byte) : Slot where
  ir := bytes.getD 0 0
  a := bytes.getD 1 0
  b := bytes.getD 2 0

/-- The bytes of a slot, lowest address first (20_memory.md R36). -/
def slotBytes (w : Slot) : List Byte := [w.ir, w.a, w.b]

/-- The slot whose bits are `w`, numbered as spec/opcode_table.json numbers them: the opcode byte is bits 7..0, `a` bits
15..8, `b` bits 23..16; bits at `nbits` and above are 0. -/
def slotOfWord (nbits w : Nat) : Slot where
  ir := BitVec.ofNat 8 (w % 2 ^ nbits)
  a := BitVec.ofNat 8 (w % 2 ^ nbits / 2 ^ 8)
  b := BitVec.ofNat 8 (w % 2 ^ nbits / 2 ^ 16)

/-- The instruction the decoder, with the default opcode bytes, reads from the word `w` of `nbits` bits. -/
def decodeTableWord (nbits w : Nat) : Option Instr :=
  match decode defaultOpcodes (slotOfWord nbits w) with
  | .ok i => some i
  | .error _ => none

end Sys2Proof
end

