-- ==== Sys2Proof/Machine/Ops.lean ====
section
/-! DEFINITION. The named operations over memory, registers and the other state, the fetch, the two stack addressing
modes, and taking a fault. -/

namespace Sys2Proof.Machine

/-- What a step answers in this model. -/
abbrev Result := Host.Outcome State Fault Refusal

/-- `read(address)`: the cell's byte, the reset value where nothing is listed (20_memory.md R32, 10_state.md R10). -/
def Memory.read : Memory → Nat → Byte
  | [], _ => Config.memReset
  | (k, v) :: rest, a => if k = a then v else Memory.read rest a

/-- The memory without any cell listed at `a`. -/
def Memory.erase (m : Memory) (a : Nat) : Memory := m.filter (fun c => decide (c.1 ≠ a))

/-- The memory with the cell `(a, v)` listed before the first cell of a higher address. -/
def Memory.place : Memory → Nat → Byte → Memory
  | [], a, v => [(a, v)]
  | (k, w) :: rest, a, v => if a < k then (a, v) :: (k, w) :: rest else (k, w) :: Memory.place rest a v

/-- `write(address, value)` (20_memory.md R33), keeping the canonical form. -/
def Memory.write (m : Memory) (a : Nat) (v : Byte) : Memory :=
  if v = Config.memReset then Memory.erase m a else Memory.place (Memory.erase m a) a v

/-- Write bytes at consecutive addresses from `a` upward (20_memory.md R34). -/
def Memory.writeAll : Memory → Nat → List Byte → Memory
  | m, _, [] => m
  | m, a, v :: rest => Memory.writeAll (Memory.write m a v) (a + 1) rest

/-- `MemRead(addr, 1)` (00_scope.md R8). -/
def State.read (s : State) (a : Byte) : Byte := Memory.read s.mem a.toNat

/-- `MemWrite(addr, 1, v)` (00_scope.md R8). -/
def State.write (s : State) (a v : Byte) : State := { s with mem := Memory.write s.mem a.toNat v }

/-- `x[i]`; no register is hardwired (10_state.md R11). -/
def State.reg (s : State) (r : RegIdx) : Byte := s.x[r.val]

/-- `x[i] <- v` (10_state.md R11). -/
def State.setReg (s : State) (r : RegIdx) (v : Byte) : State := { s with x := s.x.set r.val v }

/-- `pc <- target`. -/
def State.setPc (s : State) (target : Byte) : State := { s with pc := target }

/-- `pc <- pc +8 n`: a handler's advance by its own width (10_state.md R15, R16). -/
def State.advance (s : State) (n : Byte) : State := s.setPc (s.pc + n)

/-- `sp <- v`. -/
def State.setSp (s : State) (v : Byte) : State := { s with sp := v }

/-- `FL <- (g, l, e)`. -/
def State.setFl (s : State) (f : Flags) : State := { s with fl := f }

/-- `out <- out ++ [v]` (10_state.md R26, 50_external_interfaces.md R118). -/
def State.emit (s : State) (v : Byte) : State := { s with out := s.out ++ [v] }

/-- `status <- v` (10_state.md R22). -/
def State.setStatus (s : State) (v : Status) : State := { s with status := v }

/-- The fetch: the bytes at `pc`, `pc + 1` and `pc + 2`, addresses modulo 256 (40_execute_loop.md R70 steps 1 and 2, R71). -/
def State.fetch (s : State) : Slot where
  ir := s.read s.pc
  a := s.read (s.pc + 1)
  b := s.read (s.pc + 2)

/-- The report of a fault of the instruction at `pc` (60_exceptions.md R133). Every fault is raised before anything is
written (R131, R132), so the cells at `pc` still hold the bytes latched at the fetch (DEDUCED, safe: log entry 6). -/
def State.faultInfo (s : State) : FaultInfo where
  pc := s.pc
  ir := s.fetch.ir
  a := s.fetch.a
  b := s.fetch.b

/-- Taking a fault, the one operation every fault goes through: `status <- Faulted(cause, info)` and nothing else
(60_exceptions.md R132). There is no return from one (R134). -/
def State.raise (s : State) (c : FaultCause) : State := s.setStatus (.faulted c s.faultInfo)

/-- The numeric code of a fault cause (60_exceptions.md R125, Table T1). -/
def FaultCause.code : FaultCause → Nat
  | .unsupportedOpcode => 1
  | .unsupportedAluOp => 2
  | .regIndexOutOfRange => 3

/-- The two independent stack pointers (10_state.md R21). -/
inductive StackPtr where
  /-- The scalar `sp`, used by PUSH and POP. -/
  | scalar
  /-- General register 7, used by CALL and RET. -/
  | register
  deriving DecidableEq, Repr

/-- The value of a stack pointer. -/
def State.ptr (s : State) : StackPtr → Byte
  | .scalar => s.sp
  | .register => s.reg Config.spReg

/-- Write a stack pointer. -/
def State.setPtr (s : State) (p : StackPtr) (v : Byte) : State :=
  match p with
  | .scalar => s.setSp v
  | .register => s.setReg Config.spReg v

/-- The address a push through `p` stores to: the pointer less 1, modulo 256 (20_memory.md R45, R46). -/
def State.pushAddr (s : State) (p : StackPtr) : Byte := s.ptr p - 1

/-- Pre-decrement store: the pointer is decremented, then `v` is stored at its new value (20_memory.md R45 (a)). -/
def State.pushVia (s : State) (p : StackPtr) (v : Byte) : State := (s.setPtr p (s.pushAddr p)).write (s.pushAddr p) v

/-- The byte a pop through `p` loads: the one at the pointer (20_memory.md R45 (b)). -/
def State.popByte (s : State) (p : StackPtr) : Byte := s.read (s.ptr p)

/-- Post-increment of the pointer after a pop's load (20_memory.md R45 (b)). -/
def State.popVia (s : State) (p : StackPtr) : State := s.setPtr p (s.ptr p + 1)

/-- The state with the slot `w` stored where the next fetch reads. -/
def State.placeSlot (s : State) (w : Slot) : State :=
  ((s.write s.pc w.ir).write (s.pc + 1) w.a).write (s.pc + 2) w.b

end Sys2Proof.Machine
end

