-- ==== Sys2Proof/Machine/Operands.lean ====
section
/-! DEFINITION. The operand forms: a register index with its check. The other form, LDI's immediate, is the operand byte
itself (30_encoding.md R54, R56). -/

namespace Sys2Proof.Machine

/-- `regidx(v)`: the register an operand byte selects, none above 7 (30_encoding.md R55). -/
def regIdx (v : Byte) : Option RegIdx := if h : v.toNat < 8 then some ⟨v.toNat, h⟩ else none

/-- Run a handler on the register that the operand byte `a` selects; a byte above 7 raises `RegIndexOutOfRange` before the
handler changes anything (30_encoding.md R55, 60_exceptions.md R128). -/
def withReg (s : State) (a : Byte) (handler : RegIdx → State) : Result :=
  match regIdx a with
  | some r => .next (handler r)
  | none => .next (s.raise .regIndexOutOfRange)

/-- The same for an instruction with two register operands: both are checked before the handler runs, and the fault is
raised once (60_exceptions.md R131). -/
def withRegs (s : State) (a b : Byte) (handler : RegIdx → RegIdx → State) : Result :=
  match regIdx a, regIdx b with
  | some r, some q => .next (handler r q)
  | _, _ => .next (s.raise .regIndexOutOfRange)

end Sys2Proof.Machine
end

