-- ==== Sys2Proof/Machine/Alu.lean ====
section
/-! DEFINITION. The ALU and its three instructions MUL, ADD, CMP (40_execute_loop.md R74, R75; 43_alu.md). -/

namespace Sys2Proof.Machine

/-- An ALU operation name. The type is wider than the three operations the ALU has, so that R75's condition has its
outcome (DESIGN CHOICE, safe: log entry 10). -/
inductive AluOp where
  | add
  | mul
  | cmp
  /-- Any other name: the ALU raises `UnsupportedAluOp` (60_exceptions.md R127). -/
  | other (name : String)
  deriving DecidableEq, Repr

/-- ADD's value: the sum modulo 256 (43_alu.md R90). -/
def aluSum (va vb : Byte) : Byte := va + vb

/-- MUL's value: the product modulo 256 (43_alu.md R90). -/
def aluProduct (va vb : Byte) : Byte := va * vb

/-- The ALU on the registers `a` and `b`: ADD and MUL write `x[a]`, CMP writes `FL`; any other operation name fails
(40_execute_loop.md R74, R75). -/
def alu (op : AluOp) (a b : RegIdx) (s : State) : Except FaultCause State :=
  match op with
  | .add => .ok (s.setReg a (aluSum (s.reg a) (s.reg b)))
  | .mul => .ok (s.setReg a (aluProduct (s.reg a) (s.reg b)))
  | .cmp => .ok (s.setFl (compareFlags (s.reg a) (s.reg b)))
  | .other _ => .error .unsupportedAluOp

/-- The handler shared by the ALU instructions: invoke the ALU, then advance `pc` by 3; a failing ALU raises its fault
(40_execute_loop.md R74, 60_exceptions.md R127). -/
def aluHandler (op : AluOp) (s : State) (a b : RegIdx) : State :=
  match alu op a b s with
  | .ok t => t.advance 3
  | .error c => s.raise c

/-- MUL a,b (R93). -/
def execMul (a b : Byte) (s : State) : Result := withRegs s a b (aluHandler .mul s)

/-- ADD a,b (R94). -/
def execAdd (a b : Byte) (s : State) : Result := withRegs s a b (aluHandler .add s)

/-- CMP a,b (R95). -/
def execCmp (a b : Byte) (s : State) : Result := withRegs s a b (aluHandler .cmp s)

end Sys2Proof.Machine
end

