-- ==== Sys2Proof/Machine/Control.lean ====
section
/-! DEFINITION. CALL, RET, JMP, JEQ, JNE (44_control_transfer.md). -/

namespace Sys2Proof.Machine

/-- A conditional jump to the address in `x[r]`, falling through by 2 (R104, R105). -/
def jumpIf (taken : Bool) (s : State) (r : RegIdx) : State :=
  if taken then s.setPc (s.reg r) else s.advance 2

/-- The state after CALL's push of its return address `pc +8 2` through `x[7]` (R100). -/
def callPush (s : State) : State := s.pushVia .register (s.pc + 2)

/-- CALL a (R100): the target register is read after `x[7]` was decremented (UNVERIFIED, unsafe: the spec's decision D11,
log entry 8). -/
def execCall (a : Byte) (s : State) : Result :=
  withReg s a fun r => (callPush s).setPc ((callPush s).reg r)

/-- RET (R101): the loaded byte becomes `pc`, then `x[7]` is incremented. -/
def execRet (s : State) : Result := .next ((s.setPc (s.popByte .register)).popVia .register)

/-- JMP a (R103). -/
def execJmp (a : Byte) (s : State) : Result := withReg s a fun r => s.setPc (s.reg r)

/-- JEQ a (R104); the register operand is checked whether or not the jump is taken (30_encoding.md R55). -/
def execJeq (a : Byte) (s : State) : Result := withReg s a (jumpIf (jeqTaken s.fl) s)

/-- JNE a (R105); the register operand is checked whether or not the jump is taken (30_encoding.md R55). -/
def execJne (a : Byte) (s : State) : Result := withReg s a (jumpIf (jneTaken s.fl) s)

end Sys2Proof.Machine
end

