-- ==== Sys2Proof/Machine/Halt.lean ====
section
/-! DEFINITION. HLT (45_halt.md). -/

namespace Sys2Proof.Machine

/-- HLT (R110): `status <- Halted`; `pc` stays at the HLT byte. -/
def execHlt (s : State) : Result := .next (s.setStatus .halted)

end Sys2Proof.Machine
end

