-- ==== Sys2Proof/Machine/LoadPrint.lean ====
section
/-! DEFINITION. LDI and PRN (41_load_immediate_and_print.md). -/

namespace Sys2Proof.Machine

/-- LDI a,b (R80). -/
def execLdi (a b : Byte) (s : State) : Result :=
  withReg s a fun r => (s.setReg r b).advance 3

/-- PRN a (R81). -/
def execPrn (a : Byte) (s : State) : Result :=
  withReg s a fun r => (s.emit (s.reg r)).advance 2

end Sys2Proof.Machine
end

