-- ==== Sys2Proof/Machine/Stack.lean ====
section
/-! DEFINITION. PUSH and POP, through the scalar stack pointer (42_stack.md). -/

namespace Sys2Proof.Machine

/-- PUSH a (R85). -/
def execPush (a : Byte) (s : State) : Result :=
  withReg s a fun r => (s.pushVia .scalar (s.reg r)).advance 2

/-- POP a (R86): the load comes first, then the destination and the pointer are written. -/
def execPop (a : Byte) (s : State) : Result :=
  withReg s a fun r => ((s.setReg r (s.popByte .scalar)).popVia .scalar).advance 2

end Sys2Proof.Machine
end

