-- ==== Sys2Proof/Machine/Engine.lean ====
section
/-! DEFINITION. The fetch-decode-dispatch step for any opcode bytes (40_execute_loop.md R70). -/

namespace Sys2Proof.Machine

/-- Decode and dispatch a fetched slot; a byte that is no opcode raises `UnsupportedOpcode` (40_execute_loop.md R70 steps 3
and 4, 60_exceptions.md R126). -/
def dispatchSlot (opc : Opcodes) (s : State) (w : Slot) : Result :=
  match decode opc w with
  | .ok i => exec i s
  | .error (.unsupportedOpcode _) => .next (s.raise .unsupportedOpcode)

/-- One step of the engine with the opcode bytes `opc`: defined only when `status = Running` (40_execute_loop.md R70,
10_state.md R23). -/
def stepWith (opc : Opcodes) (s : State) : Result :=
  match s.status with
  | .running => dispatchSlot opc s s.fetch
  | .halted => .fault .haltedHasNoStep
  | .faulted _ _ => .fault .faultedHasNoStep

/-- Make the state fetch the slot `w` next: the slot's bytes stored at `pc`, and `status` Running, which a fetch needs
(40_execute_loop.md R70). -/
def armWith (s : State) (w : Slot) : State := (s.placeSlot w).setStatus .running

end Sys2Proof.Machine
end

