-- ==== Sys2Proof/Machine/Step.lean ====
section
/-! DEFINITION. The step of the machine with the default opcode bytes, and the host's way to place an instruction. -/

namespace Sys2Proof.Machine

/-- One step (40_execute_loop.md R70), with the default opcode bytes of Table E2 (log entry 1). -/
def step (s : State) : Host.Outcome State Fault Refusal := stepWith defaultOpcodes s

/-- `s` with the instruction whose `nbits` bits are `w` stored where `step` fetches next and `status` Running, which the
fetch needs; it stands for the host's load (log entry 11). -/
def State.withFetchWord (s : State) (nbits w : Nat) : State := armWith s (slotOfWord nbits w)

end Sys2Proof.Machine
end

