-- ==== Sys2Proof/Machine/HostPort.lean ====
section
/-! DEFINITION. The host's side of the block (50_external_interfaces.md): reset, load, the output, the trace tap, the
report, and the text forms the host reads and writes. None of it is a step of the engine. -/

namespace Sys2Proof.Machine

/-- The host's reset: every element to its reset value, whatever the state (70_reset_and_hazards.md R145, R150). -/
def hostReset (_ : State) : State := State.reset

/-- `load(bytes)` (20_memory.md R34): the bytes at address 0 upward. The host has this move in the reset state only and for at
most 256 bytes: a load into any other state, during a run or after it, is no move and has no result
(50_external_interfaces.md R116, R122 Table X2; the spec's decisions D16 and D17, log entry 11). -/
def State.load (s : State) (bytes : List Byte) : Option State :=
  if s = State.reset ∧ bytes.length ≤ Config.memSize then
    some { s with mem := Memory.writeAll s.mem Config.loadBase bytes }
  else none

/-- The start of a run: reset, then load (70_reset_and_hazards.md R148, R149). -/
def launch (bytes : List Byte) : Option State := State.reset.load bytes

/-- The trace tap's twelve fields: `pc`, the slot at `pc`, the eight registers (50_external_interfaces.md R119). -/
def State.trace (s : State) : List Byte :=
  s.pc :: slotBytes s.fetch ++ s.x.toList

/-- What the host is told when a run ends: nothing while Running, no fault after HLT, or the fault's cause code and its
record (50_external_interfaces.md R120). -/
def State.report (s : State) : Option (Option (Nat × FaultInfo)) :=
  match s.status with
  | .running => none
  | .halted => some none
  | .faulted c i => some (some (c.code, i))

/-- The decimal lines the sink shows for the output (50_external_interfaces.md R118; host side, 00_scope.md R4 (b)). -/
def State.outLines (s : State) : List String := s.out.map fun v => toString v.toNat

/-- The case of the trace's hex digits, which the spec leaves open (91_not_in_source.md N15; log entry 15). -/
inductive HexCase where
  | upper
  | lower
  deriving DecidableEq, Repr

/-- One hex digit. -/
def hexDigit (k : HexCase) (n : Nat) : Char :=
  match k with
  | .upper => "0123456789ABCDEF".toList.getD n '0'
  | .lower => "0123456789abcdef".toList.getD n '0'

/-- A byte as two hex digits (50_external_interfaces.md R119). -/
def hexByte (k : HexCase) (v : Byte) : List Char := [hexDigit k (v.toNat / 16), hexDigit k (v.toNat % 16)]

/-- The trace line: twelve fields of two hex digits, space-separated (50_external_interfaces.md R119). -/
def State.traceLine (k : HexCase) (s : State) : List Char := List.intercalate [' '] (s.trace.map (hexByte k))

/-- The default comment marker of the text image. PRESUMED, safe for the engine: general knowledge (D18, G7; log entry
15); no rule of the engine depends on it. -/
def commentMarker : Char := '#'

/-- The value of a binary digit. -/
def bitOfChar : Char → Option Nat
  | '0' => some 0
  | '1' => some 1
  | _ => none

/-- The value of `n` leading binary digits, the first one most significant; none where a digit is missing or is no digit. -/
def leadingBits : Nat → Nat → List Char → Option Nat
  | 0, acc, _ => some acc
  | _ + 1, _, [] => none
  | n + 1, acc, c :: rest => (bitOfChar c).bind fun d => leadingBits n (2 * acc + d) rest

/-- Does a line of a text image contribute a byte: it is neither blank nor led by the comment marker
(50_external_interfaces.md R117). A blank line is one of no characters; one of white space only is malformed here, which
gives no result (DESIGN CHOICE, safe: log entry 15). -/
def contributes (marker : Char) (line : List Char) : Bool :=
  !line.isEmpty && !(line.head? == some marker)

/-- The bytes of a text image, one per contributing line from its leftmost 8 characters, bit 7 first; a malformed line
gives no result (50_external_interfaces.md R117, 93_implementation_defined.md U9). -/
def parseImage (marker : Char) : List (List Char) → Option (List Byte)
  | [] => some []
  | line :: rest =>
    if contributes marker line then
      (leadingBits 8 0 line).bind fun v => (parseImage marker rest).map (BitVec.ofNat 8 v :: ·)
    else parseImage marker rest

end Sys2Proof.Machine
end

