-- ==== Sys2Proof/Safety.lean ====
section
/-! DEFINITION. The terms claims are stated in: what stays the same between two states, the tables of the spec that say
which instruction touches what, the invariant of the machine, and short sequences of instructions. -/

namespace Sys2Proof.Machine

/-! ## What stays the same -/

/-- Every byte of memory reads as before. -/
def KeepsMem (s t : State) : Prop := ∀ a : Byte, t.read a = s.read a

/-- Every byte of memory but the one at `a` reads as before. -/
def KeepsMemBut (s t : State) (a : Byte) : Prop := ∀ b : Byte, b ≠ a → t.read b = s.read b

/-- Every general register is as before. -/
def KeepsRegs (s t : State) : Prop := ∀ q : RegIdx, t.reg q = s.reg q

/-- Every general register but `r` is as before. -/
def KeepsRegsBut (s t : State) (r : RegIdx) : Prop := ∀ q : RegIdx, q ≠ r → t.reg q = s.reg q

/-- `pc` has advanced by `n`, modulo 256. -/
def PcPlus (s t : State) (n : Nat) : Prop := t.pc.toNat = (s.pc.toNat + n) % 256

/-- Nothing but `status` differs. -/
def OnlyStatus (s t : State) : Prop :=
  t.mem = s.mem ∧ t.x = s.x ∧ t.pc = s.pc ∧ t.sp = s.sp ∧ t.fl = s.fl ∧ t.out = s.out

/-- The status a fault of the instruction at `pc` leaves: its cause and the record `(pc, IR, a, b)` of 60_exceptions.md R133,
written from the cells at `pc`, `pc + 1`, `pc + 2`. -/
def faultStatus (s : State) (c : FaultCause) : Status :=
  .faulted c ⟨s.pc, s.read s.pc, s.read (s.pc + 1), s.read (s.pc + 2)⟩

/-- The instruction answers a next state in which `RegIndexOutOfRange` has been taken and nothing else was written, whatever
the fault records. -/
def FaultsOnIndex (i : Instr) (s : State) : Prop :=
  ∃ t info, exec i s = .next t ∧ t.status = .faulted .regIndexOutOfRange info ∧ OnlyStatus s t

/-- The same with what the fault records. -/
def RaisesRegIndex (i : Instr) (s : State) : Prop :=
  ∃ t, exec i s = .next t ∧ t.status = faultStatus s .regIndexOutOfRange ∧ OnlyStatus s t

/-- A function applied to the next state of a result. -/
def mapNext (f : State → State) : Result → Result
  | .next t => .next (f t)
  | .fault e => .fault e
  | .refused e => .refused e

/-- The register an operand byte 0 to 7 names, register 0 for a higher byte; used only on well-formed instructions. -/
def State.regAt (s : State) (a : Byte) : Byte := if h : a.toNat < 8 then s.reg ⟨a.toNat, h⟩ else s.reg 0

end Sys2Proof.Machine

namespace Sys2Proof

open Machine

/-! ## The spec's tables, as functions of the instruction -/

/-- The registers an instruction reads (10_state.md R13, Table S2); of JEQ and JNE only when the jump is taken. -/
def Instr.reads (i : Instr) (s : State) (q : RegIdx) : Bool :=
  match i with
  | .ldi _ _ => false
  | .prn a => a.toNat == q.val
  | .push a => a.toNat == q.val
  | .pop _ => false
  | .mul a b => a.toNat == q.val || b.toNat == q.val
  | .add a b => a.toNat == q.val || b.toNat == q.val
  | .cmp a b => a.toNat == q.val || b.toNat == q.val
  | .call a => q.val == 7 || a.toNat == q.val
  | .ret => q.val == 7
  | .jmp a => a.toNat == q.val
  | .jeq a => s.fl.e && a.toNat == q.val
  | .jne a => !s.fl.e && a.toNat == q.val
  | .hlt => false

/-- The registers an instruction writes (10_state.md R13, Table S2). -/
def Instr.writes (i : Instr) (q : RegIdx) : Bool :=
  match i with
  | .ldi a _ => a.toNat == q.val
  | .prn _ => false
  | .push _ => false
  | .pop a => a.toNat == q.val
  | .mul a _ => a.toNat == q.val
  | .add a _ => a.toNat == q.val
  | .cmp _ _ => false
  | .call _ => q.val == 7
  | .ret => q.val == 7
  | .jmp _ => false
  | .jeq _ => false
  | .jne _ => false
  | .hlt => false

/-- Where an instruction stores, computed as its meaning computes it (20_memory.md R31, Table M1). -/
def Instr.storeAddr (i : Instr) (s : State) : Option Byte :=
  match i with
  | .push _ => some (s.pushAddr .scalar)
  | .call _ => some (s.pushAddr .register)
  | .ldi _ _ => none
  | .prn _ => none
  | .pop _ => none
  | .mul _ _ => none
  | .add _ _ => none
  | .cmp _ _ => none
  | .ret => none
  | .jmp _ => none
  | .jeq _ => none
  | .jne _ => none
  | .hlt => none

/-- Where an instruction loads its data from (20_memory.md R31, Table M1). -/
def Instr.loadAddr (i : Instr) (s : State) : Option Byte :=
  match i with
  | .pop _ => some s.sp
  | .ret => some (s.reg 7)
  | .ldi _ _ => none
  | .prn _ => none
  | .push _ => none
  | .mul _ _ => none
  | .add _ _ => none
  | .cmp _ _ => none
  | .call _ => none
  | .jmp _ => none
  | .jeq _ => none
  | .jne _ => none
  | .hlt => none

/-- The new `pc` of a well-formed instruction, as a number (10_state.md R15, Table S3). CALL's target is read after `x[7]`
was decremented, so for CALL 7 it is the decremented value. -/
def Instr.newPc (i : Instr) (s : State) : Nat :=
  match i with
  | .ldi _ _ => (s.pc.toNat + 3) % 256
  | .mul _ _ => (s.pc.toNat + 3) % 256
  | .add _ _ => (s.pc.toNat + 3) % 256
  | .cmp _ _ => (s.pc.toNat + 3) % 256
  | .prn _ => (s.pc.toNat + 2) % 256
  | .push _ => (s.pc.toNat + 2) % 256
  | .pop _ => (s.pc.toNat + 2) % 256
  | .call a => if a.toNat = 7 then ((s.reg 7).toNat + 255) % 256 else (s.regAt a).toNat
  | .ret => (s.read (s.reg 7)).toNat
  | .jmp a => (s.regAt a).toNat
  | .jeq a => if s.fl.e then (s.regAt a).toNat else (s.pc.toNat + 2) % 256
  | .jne a => if s.fl.e then (s.pc.toNat + 2) % 256 else (s.regAt a).toNat
  | .hlt => s.pc.toNat

end Sys2Proof

namespace Sys2Proof.Machine

/-! ## Flags and the machine's invariant -/

/-- Exactly one flag is set (43_alu.md R95). -/
def Flags.OneSet (f : Flags) : Prop :=
  f = ⟨true, false, false⟩ ∨ f = ⟨false, true, false⟩ ∨ f = ⟨false, false, true⟩

/-- The flags have one of their four reachable values (10_state.md R19). -/
def Flags.Legal (f : Flags) : Prop := f = ⟨false, false, false⟩ ∨ f.OneSet

/-- The status tells the truth about the state it stands in: a Halted engine stands at a HLT, and a Faulted one at the
instruction its report records, whose bytes have that fault; the ALU's fault is never the cause. -/
def State.StatusTruthful (opc : Opcodes) (s : State) : Prop :=
  match s.status with
  | .running => True
  | .halted => s.read s.pc = opc.hlt
  | .faulted c info =>
    info = ⟨s.pc, s.read s.pc, s.read (s.pc + 1), s.read (s.pc + 2)⟩ ∧
      match c with
      | .unsupportedOpcode => info.ir ∉ opc.toList
      | .unsupportedAluOp => False
      | .regIndexOutOfRange => ∃ i, decode opc ⟨info.ir, info.a, info.b⟩ = .ok i ∧ i.wellFormed = false

/-- The invariant of the machine: memory is in canonical form, the flags are legal, the status is truthful. -/
def State.Inv (opc : Opcodes) (s : State) : Prop := s.mem.wf ∧ s.fl.Legal ∧ s.StatusTruthful opc

/-! ## Short sequences of instructions -/

/-- The operand byte that names a register. -/
def regByte (r : RegIdx) : Byte := BitVec.ofNat 8 r.val

/-- Run PUSH on each register of a list in turn. -/
def pushAll : List RegIdx → State → Option State
  | [], s => some s
  | r :: rest, s =>
    match exec (.push (regByte r)) s with
    | .next t => pushAll rest t
    | _ => none

/-- Run POP into register `c` `n` times, and list the values it received, first pop first. -/
def popValues (c : RegIdx) : Nat → State → Option (List Byte × State)
  | 0, s => some ([], s)
  | n + 1, s =>
    match exec (.pop (regByte c)) s with
    | .next t => (popValues c n t).map fun p => (t.reg c :: p.1, p.2)
    | _ => none

end Sys2Proof.Machine
end

