-- ==== Sys2Proof/Pseudocode.lean ====
section
/-! DEFINITION. The spec's pseudocode over plain numbers: a second machine, with memory and registers as functions and
every value a natural number reduced modulo 256, written line by line from 40_execute_loop.md R70 and the instruction rules.
The engine's model is stated to refine it (20_memory.md R43: a function from address to byte is an exact memory). -/

namespace Sys2Proof.Pseudo

open Sys2Proof.Machine

/-- The run status, a fault with its code and record in numbers (60_exceptions.md R125, R133). -/
inductive NumStatus where
  | running
  | halted
  | faulted (code pc ir a b : Nat)

/-- The state tuple of 10_state.md R10 in numbers. -/
structure NumState where
  mem : Nat → Nat
  x : Nat → Nat
  pc : Nat
  sp : Nat
  g : Bool
  l : Bool
  e : Bool
  status : NumStatus
  out : List Nat

/-- `f[i] <- v`. -/
def upd (f : Nat → Nat) (i v : Nat) : Nat → Nat := fun j => if j = i then v else f j

/-- The engine's state in numbers. -/
def ofState (s : State) : NumState where
  mem := fun a => (Memory.read s.mem a).toNat
  x := fun i => if h : i < 8 then (s.reg ⟨i, h⟩).toNat else 0
  pc := s.pc.toNat
  sp := s.sp.toNat
  g := s.fl.g
  l := s.fl.l
  e := s.fl.e
  status := match s.status with
    | .running => .running
    | .halted => .halted
    | .faulted c i => .faulted c.code i.pc.toNat i.ir.toNat i.a.toNat i.b.toNat
  out := s.out.map BitVec.toNat

/-- LDI a,b (R80). -/
def ldi (a b : Nat) (m : NumState) : NumState := { m with x := upd m.x a b, pc := (m.pc + 3) % 256 }

/-- PRN a (R81). -/
def prn (a : Nat) (m : NumState) : NumState := { m with out := m.out ++ [m.x a], pc := (m.pc + 2) % 256 }

/-- PUSH a (R85). -/
def push (a : Nat) (m : NumState) : NumState :=
  let m1 := { m with sp := (m.sp + 256 - 1) % 256 }
  { m1 with mem := upd m1.mem m1.sp (m1.x a), pc := (m1.pc + 2) % 256 }

/-- POP a (R86). -/
def pop (a : Nat) (m : NumState) : NumState :=
  { m with x := upd m.x a (m.mem m.sp), sp := (m.sp + 1) % 256, pc := (m.pc + 2) % 256 }

/-- MUL a,b (R93). -/
def mul (a b : Nat) (m : NumState) : NumState :=
  { m with x := upd m.x a (m.x a * m.x b % 256), pc := (m.pc + 3) % 256 }

/-- ADD a,b (R94). -/
def add (a b : Nat) (m : NumState) : NumState :=
  { m with x := upd m.x a ((m.x a + m.x b) % 256), pc := (m.pc + 3) % 256 }

/-- CMP a,b (R95). -/
def cmp (a b : Nat) (m : NumState) : NumState :=
  let m1 := { m with g := false, l := false, e := false }
  let m2 :=
    if m.x a > m.x b then { m1 with g := true }
    else if m.x a < m.x b then { m1 with l := true }
    else { m1 with e := true }
  { m2 with pc := (m2.pc + 3) % 256 }

/-- CALL a (R100). -/
def call (a : Nat) (m : NumState) : NumState :=
  let m1 := { m with x := upd m.x 7 ((m.x 7 + 256 - 1) % 256) }
  let m2 := { m1 with mem := upd m1.mem (m1.x 7) ((m1.pc + 2) % 256) }
  { m2 with pc := m2.x a }

/-- RET (R101). -/
def ret (m : NumState) : NumState := { m with pc := m.mem (m.x 7), x := upd m.x 7 ((m.x 7 + 1) % 256) }

/-- JMP a (R103). -/
def jmp (a : Nat) (m : NumState) : NumState := { m with pc := m.x a }

/-- JEQ a (R104). -/
def jeq (a : Nat) (m : NumState) : NumState := if m.e then { m with pc := m.x a } else { m with pc := (m.pc + 2) % 256 }

/-- JNE a (R105). -/
def jne (a : Nat) (m : NumState) : NumState := if m.e then { m with pc := (m.pc + 2) % 256 } else { m with pc := m.x a }

/-- One register operand checked (30_encoding.md R55), then the handler. -/
def check1 (ir a b : Nat) (handler : Nat → NumState → NumState) (m : NumState) : NumState :=
  if 7 < a then { m with status := .faulted 3 m.pc ir a b } else handler a m

/-- Two register operands checked, then the handler. -/
def check2 (ir a b : Nat) (handler : Nat → Nat → NumState → NumState) (m : NumState) : NumState :=
  if 7 < a ∨ 7 < b then { m with status := .faulted 3 m.pc ir a b } else handler a b m

/-- Steps 3 and 4 of 40_execute_loop.md R70 on the fetched bytes. -/
def dispatch (opc : Opcodes) (ir a b : Nat) (m : NumState) : NumState :=
  if ir = opc.hlt.toNat then { m with status := .halted }
  else if ir = opc.ldi.toNat then check1 ir a b (fun a => ldi a b) m
  else if ir = opc.prn.toNat then check1 ir a b prn m
  else if ir = opc.push.toNat then check1 ir a b push m
  else if ir = opc.pop.toNat then check1 ir a b pop m
  else if ir = opc.mul.toNat then check2 ir a b mul m
  else if ir = opc.add.toNat then check2 ir a b add m
  else if ir = opc.cmp.toNat then check2 ir a b cmp m
  else if ir = opc.call.toNat then check1 ir a b call m
  else if ir = opc.ret.toNat then ret m
  else if ir = opc.jmp.toNat then check1 ir a b jmp m
  else if ir = opc.jeq.toNat then check1 ir a b jeq m
  else if ir = opc.jne.toNat then check1 ir a b jne m
  else { m with status := .faulted 1 m.pc ir a b }

/-- The step of 40_execute_loop.md R70: none unless Running. -/
def step (opc : Opcodes) (m : NumState) : Option NumState :=
  match m.status with
  | .running => some (dispatch opc (m.mem m.pc) (m.mem ((m.pc + 1) % 256)) (m.mem ((m.pc + 2) % 256)) m)
  | .halted => none
  | .faulted _ _ _ _ _ => none

/-- What the engine's result says in numbers: the next state, or that there is no step. -/
def ofResult : Result → Option NumState
  | .next t => some (ofState t)
  | .fault _ => none
  | .refused _ => none

end Sys2Proof.Pseudo
end

