-- ==== Sys2Proof/Certificates/Slice0/Obligations.lean ====
section
/-! DEFINITION. The statements for the provers. Decoding clauses quantify over every choice of pairwise distinct opcode bytes,
which the spec makes parameters of the model (00_scope.md R6). -/

open Sys2Proof Sys2Proof.Machine

/-! ## Reset and launch -/

/-- What reset leaves (70_reset_and_hazards.md Table Z1). The values of `pc` and of the flags are the spec's own decisions D5
and D6 (log entry 4), hence 'derived'. -/
def Obligations.ResetState : Prop :=
  (∀ a : Byte, State.reset.read a = 0x00) ∧ (∀ r : RegIdx, State.reset.reg r = 0x00) ∧ State.reset.sp = 0x07 ∧
    State.reset.pc = 0x00 ∧ State.reset.fl = ⟨false, false, false⟩ ∧ State.reset.status = .running ∧ State.reset.out = []

/-- A launched image stands at address 0 upward, zeros above it, everything else as reset leaves it (R148). -/
def Obligations.LaunchPlacesImage : Prop :=
  ∀ bytes : List Byte, bytes.length ≤ 256 →
    ∃ t, launch bytes = some t ∧ (∀ (i : Nat) (h : i < bytes.length), t.read (BitVec.ofNat 8 i) = bytes[i]) ∧
      (∀ a : Byte, bytes.length ≤ a.toNat → t.read a = 0x00) ∧
      t.x = State.reset.x ∧ t.pc = State.reset.pc ∧ t.sp = State.reset.sp ∧ t.fl = State.reset.fl ∧
      t.status = State.reset.status ∧ t.out = State.reset.out

/-- An image of more than 256 bytes has no result (the spec's own decision D16; log entry 11). -/
def Obligations.OversizedImageRefused : Prop :=
  ∀ (s : State) (bytes : List Byte), 256 < bytes.length → s.load bytes = none

/-- Loading happens once, before the run (50_external_interfaces.md Table X2; the spec's own decision D17, log entry 11): a load
has a result in no state but reset, so in none that a step of the machine answers, the default opcode bytes being log entry 1;
and after the host's reset a load of at most 256 bytes has one, whatever the state was. -/
def Obligations.LoadOnlyBeforeTheRun : Prop :=
  (∀ (s : State) (bytes : List Byte), s ≠ State.reset → s.load bytes = none) ∧
  (∀ (s t : State) (bytes : List Byte), step s = .next t → t.load bytes = none) ∧
  (∀ (s : State) (bytes : List Byte), bytes.length ≤ 256 → (hostReset s).load bytes = launch bytes ∧ launch bytes ≠ none)

/-! ## One instruction each: decoding, effect, frame, fault -/

/-- LDI (R80), whole: its encoding, its effect and frame for every register, its fault. -/
def Obligations.LdiLoadsImmediate : Prop :=
  ∀ (s : State) (a b : Byte),
    (∀ opc : Opcodes, opc.Distinct → decode opc ⟨opc.ldi, a, b⟩ = .ok (.ldi a b)) ∧
    (∀ r : RegIdx, a.toNat = r.val →
      ∃ t, exec (.ldi a b) s = .next t ∧ t.reg r = b ∧ KeepsRegsBut s t r ∧ PcPlus s t 3 ∧ KeepsMem s t ∧
        t.sp = s.sp ∧ t.fl = s.fl ∧ t.out = s.out ∧ t.status = s.status) ∧
    (7 < a.toNat → FaultsOnIndex (.ldi a b) s)

/-- PRN (R81), whole. -/
def Obligations.PrnEmitsRegister : Prop :=
  ∀ (s : State) (a : Byte),
    (∀ (opc : Opcodes) (third : Byte), opc.Distinct → decode opc ⟨opc.prn, a, third⟩ = .ok (.prn a)) ∧
    (∀ r : RegIdx, a.toNat = r.val →
      ∃ t, exec (.prn a) s = .next t ∧ t.out = s.out ++ [s.reg r] ∧ PcPlus s t 2 ∧ KeepsRegs s t ∧ KeepsMem s t ∧
        t.sp = s.sp ∧ t.fl = s.fl ∧ t.status = s.status) ∧
    (7 < a.toNat → FaultsOnIndex (.prn a) s)

/-- PUSH for every register and every `sp`. That `sp = 0` wraps to 255 and that a byte above 7 faults are the spec's own
decisions D2 and D4 (log entries 2 and 5), hence 'derived'. -/
def Obligations.PushStoresBelowSp : Prop :=
  ∀ (s : State) (a : Byte),
    (∀ (opc : Opcodes) (third : Byte), opc.Distinct → decode opc ⟨opc.push, a, third⟩ = .ok (.push a)) ∧
    (∀ r : RegIdx, a.toNat = r.val →
      ∃ t, exec (.push a) s = .next t ∧ t.sp = s.pushAddr .scalar ∧ t.sp.toNat = (s.sp.toNat + 255) % 256 ∧
        t.read (s.pushAddr .scalar) = s.reg r ∧ KeepsMemBut s t (s.pushAddr .scalar) ∧ PcPlus s t 2 ∧ KeepsRegs s t ∧
        t.fl = s.fl ∧ t.out = s.out ∧ t.status = s.status) ∧
    (7 < a.toNat → FaultsOnIndex (.push a) s)

/-- POP (R86), whole. -/
def Obligations.PopLoadsAtSp : Prop :=
  ∀ (s : State) (a : Byte),
    (∀ (opc : Opcodes) (third : Byte), opc.Distinct → decode opc ⟨opc.pop, a, third⟩ = .ok (.pop a)) ∧
    (∀ r : RegIdx, a.toNat = r.val →
      ∃ t, exec (.pop a) s = .next t ∧ t.reg r = s.read s.sp ∧ KeepsRegsBut s t r ∧
        t.sp.toNat = (s.sp.toNat + 1) % 256 ∧ PcPlus s t 2 ∧ KeepsMem s t ∧ t.fl = s.fl ∧ t.out = s.out ∧
        t.status = s.status) ∧
    (7 < a.toNat → FaultsOnIndex (.pop a) s)

/-- MUL (R93), whole; `r` and `q` may be the same register. -/
def Obligations.MulWritesProduct : Prop :=
  ∀ (s : State) (a b : Byte),
    (∀ opc : Opcodes, opc.Distinct → decode opc ⟨opc.mul, a, b⟩ = .ok (.mul a b)) ∧
    (∀ r q : RegIdx, a.toNat = r.val → b.toNat = q.val →
      ∃ t, exec (.mul a b) s = .next t ∧ (t.reg r).toNat = ((s.reg r).toNat * (s.reg q).toNat) % 256 ∧
        KeepsRegsBut s t r ∧ PcPlus s t 3 ∧ KeepsMem s t ∧ t.sp = s.sp ∧ t.fl = s.fl ∧ t.out = s.out ∧
        t.status = s.status) ∧
    (7 < a.toNat ∨ 7 < b.toNat → FaultsOnIndex (.mul a b) s)

/-- ADD (R94), whole; `r` and `q` may be the same register, so "leaves reg[b] unchanged" is said of `b` other than `a`. -/
def Obligations.AddWritesSum : Prop :=
  ∀ (s : State) (a b : Byte),
    (∀ opc : Opcodes, opc.Distinct → decode opc ⟨opc.add, a, b⟩ = .ok (.add a b)) ∧
    (∀ r q : RegIdx, a.toNat = r.val → b.toNat = q.val →
      ∃ t, exec (.add a b) s = .next t ∧ (t.reg r).toNat = ((s.reg r).toNat + (s.reg q).toNat) % 256 ∧
        KeepsRegsBut s t r ∧ PcPlus s t 3 ∧ KeepsMem s t ∧ t.sp = s.sp ∧ t.fl = s.fl ∧ t.out = s.out ∧
        t.status = s.status) ∧
    (7 < a.toNat ∨ 7 < b.toNat → FaultsOnIndex (.add a b) s)

/-- CMP (R95), whole: each flag by the unsigned order, whatever the flags were, and they stay until the next CMP. -/
def Obligations.CmpSetsExactlyOneFlag : Prop :=
  ∀ (s : State) (a b : Byte),
    (∀ opc : Opcodes, opc.Distinct → decode opc ⟨opc.cmp, a, b⟩ = .ok (.cmp a b)) ∧
    (∀ r q : RegIdx, a.toNat = r.val → b.toNat = q.val →
      ∃ t, exec (.cmp a b) s = .next t ∧ (t.fl.g = true ↔ (s.reg r).toNat > (s.reg q).toNat) ∧
        (t.fl.l = true ↔ (s.reg r).toNat < (s.reg q).toNat) ∧ (t.fl.e = true ↔ (s.reg r).toNat = (s.reg q).toNat) ∧
        t.fl.OneSet ∧ PcPlus s t 3 ∧ KeepsRegs s t ∧ KeepsMem s t ∧ t.sp = s.sp ∧ t.out = s.out ∧ t.status = s.status) ∧
    (7 < a.toNat ∨ 7 < b.toNat → FaultsOnIndex (.cmp a b) s) ∧
    (∀ (i : Instr) (t u : State), (∀ c d, i ≠ .cmp c d) → exec i t = .next u → u.fl = t.fl)

/-- CALL for every register, register 7 too. The wrap, the use of `x[7]`, the target read after the decrement and the fault
are the spec's own decisions D2, D10, D11, D4 (log entries 2, 14, 8, 5), hence 'derived'. -/
def Obligations.CallPushesReturnAddress : Prop :=
  ∀ (s : State) (a : Byte),
    (∀ (opc : Opcodes) (third : Byte), opc.Distinct → decode opc ⟨opc.call, a, third⟩ = .ok (.call a)) ∧
    (∀ r : RegIdx, a.toNat = r.val →
      ∃ t, exec (.call a) s = .next t ∧ t.reg 7 = s.pushAddr .register ∧
        (t.reg 7).toNat = ((s.reg 7).toNat + 255) % 256 ∧ KeepsRegsBut s t 7 ∧
        (t.read (s.pushAddr .register)).toNat = (s.pc.toNat + 2) % 256 ∧ KeepsMemBut s t (s.pushAddr .register) ∧
        t.pc = (if r = 7 then s.pushAddr .register else s.reg r) ∧ t.sp = s.sp ∧ t.fl = s.fl ∧ t.out = s.out ∧
        t.status = s.status) ∧
    (7 < a.toNat → FaultsOnIndex (.call a) s)

/-- RET (R101), whole: the loaded byte is the new `pc`, whatever the two ignored bytes are. -/
def Obligations.RetPopsPc : Prop :=
  ∀ s : State,
    (∀ (opc : Opcodes) (second third : Byte), opc.Distinct → decode opc ⟨opc.ret, second, third⟩ = .ok .ret) ∧
    ∃ t, exec .ret s = .next t ∧ t.pc = s.read (s.reg 7) ∧ (t.reg 7).toNat = ((s.reg 7).toNat + 1) % 256 ∧
      KeepsRegsBut s t 7 ∧ KeepsMem s t ∧ t.sp = s.sp ∧ t.fl = s.fl ∧ t.out = s.out ∧ t.status = s.status

/-- JMP (R103), whole. -/
def Obligations.JmpJumpsToRegister : Prop :=
  ∀ (s : State) (a : Byte),
    (∀ (opc : Opcodes) (third : Byte), opc.Distinct → decode opc ⟨opc.jmp, a, third⟩ = .ok (.jmp a)) ∧
    (∀ r : RegIdx, a.toNat = r.val →
      ∃ t, exec (.jmp a) s = .next t ∧ t.pc = s.reg r ∧ KeepsRegs s t ∧ KeepsMem s t ∧ t.sp = s.sp ∧ t.fl = s.fl ∧
        t.out = s.out ∧ t.status = s.status) ∧
    (7 < a.toNat → FaultsOnIndex (.jmp a) s)

/-- JEQ (R104), whole: taken exactly on Equal; the operand is checked whether or not the jump is taken. -/
def Obligations.JeqJumpsOnEqual : Prop :=
  ∀ (s : State) (a : Byte),
    (∀ (opc : Opcodes) (third : Byte), opc.Distinct → decode opc ⟨opc.jeq, a, third⟩ = .ok (.jeq a)) ∧
    (∀ r : RegIdx, a.toNat = r.val →
      ∃ t, exec (.jeq a) s = .next t ∧ (s.fl.e = true → t.pc = s.reg r) ∧ (s.fl.e = false → PcPlus s t 2) ∧
        KeepsRegs s t ∧ KeepsMem s t ∧ t.sp = s.sp ∧ t.fl = s.fl ∧ t.out = s.out ∧ t.status = s.status) ∧
    (7 < a.toNat → FaultsOnIndex (.jeq a) s)

/-- JNE: taken exactly when Equal is not set; the operand is checked whether or not the jump is taken. That it jumps before
any CMP too, which R105 marks as an inference of its own, is the case of all flags false, hence 'derived'. -/
def Obligations.JneJumpsOnNotEqual : Prop :=
  ∀ (s : State) (a : Byte),
    (∀ (opc : Opcodes) (third : Byte), opc.Distinct → decode opc ⟨opc.jne, a, third⟩ = .ok (.jne a)) ∧
    (∀ r : RegIdx, a.toNat = r.val →
      ∃ t, exec (.jne a) s = .next t ∧ (s.fl.e = false → t.pc = s.reg r) ∧ (s.fl.e = true → PcPlus s t 2) ∧
        KeepsRegs s t ∧ KeepsMem s t ∧ t.sp = s.sp ∧ t.fl = s.fl ∧ t.out = s.out ∧ t.status = s.status) ∧
    (7 < a.toNat → FaultsOnIndex (.jne a) s)

/-- HLT. That `pc` stays is the spec's own decision D14 (log entry 6), hence 'derived'. -/
def Obligations.HltHalts : Prop :=
  ∀ s : State,
    (∀ (opc : Opcodes) (second third : Byte), opc.Distinct → decode opc ⟨opc.hlt, second, third⟩ = .ok .hlt) ∧
    ∃ t, exec .hlt s = .next t ∧ t.status = .halted ∧ OnlyStatus s t

/-! ## The step -/

/-- A Running engine whose fetched slot decodes to `i` runs exactly `exec i`, nothing around it. -/
def Obligations.StepRunsDecodedInstr : Prop :=
  (∀ (opc : Opcodes) (s : State) (i : Instr), s.status = .running →
    decode opc ⟨s.read s.pc, s.read (s.pc + 1), s.read (s.pc + 2)⟩ = .ok i → stepWith opc s = exec i s) ∧
  (∀ (s : State) (i : Instr), s.status = .running →
    decode defaultOpcodes ⟨s.read s.pc, s.read (s.pc + 1), s.read (s.pc + 2)⟩ = .ok i → step s = exec i s)

/-- The three fetch addresses in numbers, modulo 256 (the spec's own decision D2; log entry 2). -/
def Obligations.FetchReadsThreeBytesModulo256 : Prop :=
  ∀ (s : State) (p q : Byte), p.toNat = (s.pc.toNat + 1) % 256 → q.toNat = (s.pc.toNat + 2) % 256 →
    s.fetch = ⟨s.read s.pc, s.read p, s.read q⟩

/-- An instruction placed with `withFetchWord` is the one the next step runs, from any state; the placing stands for the host's
load (log entry 11, the model's choice), and the words are read with the default opcode bytes (log entry 1, presumed). -/
def Obligations.PlacedWordRunsNext : Prop :=
  ∀ (s : State) (nbits w : Nat) (i : Instr), decodeTableWord nbits w = some i →
    step (s.withFetchWord nbits w) = exec i (s.withFetchWord nbits w) ∧
      (s.withFetchWord nbits w).pc = s.pc ∧ KeepsRegs s (s.withFetchWord nbits w) ∧
      ∀ a : Byte, a ≠ s.pc → a ≠ s.pc + 1 → a ≠ s.pc + 2 → (s.withFetchWord nbits w).read a = s.read a

/-- A Running engine always has a next state, whatever memory holds: no step stops the model. -/
def Obligations.RunningStateAlwaysSteps : Prop :=
  ∀ (opc : Opcodes) (s : State), s.status = .running → ∃ t, stepWith opc s = .next t

/-- A Halted or Faulted engine has no step (10_state.md section 5; the model answers a fault of its own, log entry 7). -/
def Obligations.EndedStateHasNoStep : Prop :=
  ∀ (opc : Opcodes) (s : State),
    (s.status = .halted → stepWith opc s = .fault .haltedHasNoStep) ∧
    (∀ c i, s.status = .faulted c i → stepWith opc s = .fault .faultedHasNoStep)

/-- The order of the tests within a step (60_exceptions.md section 3), all four outcomes; the place of the register check is
the spec's own decision D4 (log entry 5). -/
def Obligations.StepFollowsTestOrder : Prop :=
  ∀ (opc : Opcodes) (s : State), s.status = .running →
    (s.read s.pc = opc.hlt → ∃ t, stepWith opc s = .next t ∧ t.status = .halted) ∧
    (s.read s.pc ∉ opc.toList → ∃ t, stepWith opc s = .next t ∧ t.status = faultStatus s .unsupportedOpcode) ∧
    (∀ i, decode opc ⟨s.read s.pc, s.read (s.pc + 1), s.read (s.pc + 2)⟩ = .ok i → i.wellFormed = false →
      ∃ t, stepWith opc s = .next t ∧ t.status = faultStatus s .regIndexOutOfRange) ∧
    (∀ i, decode opc ⟨s.read s.pc, s.read (s.pc + 1), s.read (s.pc + 2)⟩ = .ok i → i.wellFormed = true →
      s.read s.pc ≠ opc.hlt → ∃ t, stepWith opc s = .next t ∧ t.status = .running)

/-- A byte with no registered handler produces the reported fault, on `IR` alone, and the engine goes no further. What the
report records is the spec's own decision D12 (log entry 6), hence 'derived'; that there is no further step the model says by
a fault of its own (log entry 7, the model's choice). -/
def Obligations.UnsupportedOpcodeFaults : Prop :=
  ∀ (opc : Opcodes) (s : State), s.status = .running → s.read s.pc ∉ opc.toList →
    ∃ t, stepWith opc s = .next t ∧
      t.status = .faulted .unsupportedOpcode ⟨s.pc, s.read s.pc, s.read (s.pc + 1), s.read (s.pc + 2)⟩ ∧
      stepWith opc t = .fault .faultedHasNoStep

/-- A register operand above 7 faults on every instruction that has one, JEQ and JNE not taken too, before anything is
written, with the full record (the spec's own decisions D4, D12, D14; log entries 5 and 6). -/
def Obligations.RegIndexAboveSevenFaults : Prop :=
  ∀ (i : Instr) (s : State), i.wellFormed = false → RaisesRegIndex i s

/-- A step that halts or faults changes `status` and nothing else; that `pc` stays is decision D14 (log entry 6). -/
def Obligations.StoppingStepChangesOnlyStatus : Prop :=
  ∀ (opc : Opcodes) (s t : State), stepWith opc s = .next t → t.status ≠ .running → OnlyStatus s t

/-! ## Encoding -/

/-- Dispatch as a total map from the opcode byte (R72): halt, twelve handlers, everything else unsupported; and a dispatch is
exactly the outcome the map names. -/
def Obligations.DispatchIsTotalMap : Prop :=
  ∀ opc : Opcodes, opc.Distinct → ∀ ir a b : Byte,
    (ir = opc.hlt → decode opc ⟨ir, a, b⟩ = .ok .hlt) ∧
    (ir = opc.ldi → decode opc ⟨ir, a, b⟩ = .ok (.ldi a b)) ∧
    (ir = opc.prn → decode opc ⟨ir, a, b⟩ = .ok (.prn a)) ∧
    (ir = opc.push → decode opc ⟨ir, a, b⟩ = .ok (.push a)) ∧
    (ir = opc.pop → decode opc ⟨ir, a, b⟩ = .ok (.pop a)) ∧
    (ir = opc.mul → decode opc ⟨ir, a, b⟩ = .ok (.mul a b)) ∧
    (ir = opc.add → decode opc ⟨ir, a, b⟩ = .ok (.add a b)) ∧
    (ir = opc.cmp → decode opc ⟨ir, a, b⟩ = .ok (.cmp a b)) ∧
    (ir = opc.call → decode opc ⟨ir, a, b⟩ = .ok (.call a)) ∧
    (ir = opc.ret → decode opc ⟨ir, a, b⟩ = .ok .ret) ∧
    (ir = opc.jmp → decode opc ⟨ir, a, b⟩ = .ok (.jmp a)) ∧
    (ir = opc.jeq → decode opc ⟨ir, a, b⟩ = .ok (.jeq a)) ∧
    (ir = opc.jne → decode opc ⟨ir, a, b⟩ = .ok (.jne a)) ∧
    (ir ∉ opc.toList → decode opc ⟨ir, a, b⟩ = .error (.unsupportedOpcode ir)) ∧
    (∀ (s : State) (i : Instr), decode opc ⟨ir, a, b⟩ = .ok i → dispatchSlot opc s ⟨ir, a, b⟩ = exec i s) ∧
    (∀ s : State, ir ∉ opc.toList → ∃ t info, dispatchSlot opc s ⟨ir, a, b⟩ = .next t ∧
      t.status = .faulted .unsupportedOpcode info ∧ OnlyStatus s t)

/-- Bytes past an instruction's width change nothing (R53): neither which instruction it is, and with it whether its operands
pass their check, nor what a dispatch does. Where an operand fails its check, both dispatches take the same fault and write
nothing but status; their records are not compared, for the record holds the third byte as latched (60_exceptions.md R133). -/
def Obligations.IgnoredBytesHaveNoEffect : Prop :=
  ∀ (opc : Opcodes) (ir a b a' b' : Byte) (i : Instr), decode opc ⟨ir, a, b⟩ = .ok i →
    (i.width = 1 → decode opc ⟨ir, a', b'⟩ = .ok i ∧
      ∀ s : State, dispatchSlot opc s ⟨ir, a', b'⟩ = dispatchSlot opc s ⟨ir, a, b⟩) ∧
    (i.width = 2 → decode opc ⟨ir, a, b'⟩ = .ok i ∧
      (i.wellFormed = true → ∀ s : State, dispatchSlot opc s ⟨ir, a, b'⟩ = dispatchSlot opc s ⟨ir, a, b⟩) ∧
      (i.wellFormed = false → ∀ s : State, ∃ t t' info info',
        dispatchSlot opc s ⟨ir, a, b⟩ = .next t ∧ t.status = .faulted .regIndexOutOfRange info ∧ OnlyStatus s t ∧
        dispatchSlot opc s ⟨ir, a, b'⟩ = .next t' ∧ t'.status = .faulted .regIndexOutOfRange info' ∧ OnlyStatus s t'))

/-- Decoding what the encoder writes gives the instruction back, for every instruction, with every operand byte, whatever
bytes follow it and whatever the distinct opcode bytes are. -/
def Obligations.DecodeOfEncode : Prop :=
  ∀ opc : Opcodes, opc.Distinct → ∀ (i : Instr) (rest : List Byte),
    decode opc (slotOfBytes (encode opc i ++ rest)) = .ok i

/-- Encoding what the decoder reads gives the slot's first bytes back, as many as the instruction is wide. -/
def Obligations.EncodeOfDecode : Prop :=
  ∀ (opc : Opcodes) (w : Slot) (i : Instr), decode opc w = .ok i →
    encode opc i = (slotBytes w).take i.width

/-- A few words with the default opcode bytes, written out bit by bit. The opcode values are general knowledge (G1; log entry
1), so this is a sanity statement about the defaults. -/
def Obligations.OpcodeWordsDecode : Prop :=
  decodeTableWord 24 0b000010000000000010000010 = some (.ldi 0 8) ∧
  decodeTableWord 24 0b000000010000000010100000 = some (.add 0 1) ∧
  decodeTableWord 16 0b0000011101000101 = some (.push 7) ∧
  decodeTableWord 16 0b0000001001010101 = some (.jeq 2) ∧
  decodeTableWord 8 0b00010001 = some .ret ∧
  decodeTableWord 8 0b00000001 = some .hlt ∧
  decodeTableWord 8 0b00000000 = none

/-! ## Memory -/

/-- A write changes the one cell and nothing else (R33). -/
def Obligations.WriteChangesOneCell : Prop :=
  ∀ (s : State) (a v : Byte), (s.write a v).read a = v ∧ KeepsMemBut s (s.write a v) a ∧ KeepsRegs s (s.write a v) ∧
    (s.write a v).pc = s.pc ∧ (s.write a v).sp = s.sp ∧ (s.write a v).fl = s.fl ∧ (s.write a v).status = s.status ∧
    (s.write a v).out = s.out

/-- The canonical form does its work: two canonical memories that read alike at every address are the same data. The list is
the model's own representation of the array (log entry 13, the model's choice). -/
def Obligations.EqualReadsEqualMemories : Prop :=
  ∀ s t : State, s.mem.wf → t.mem.wf → KeepsMem s t → s.mem = t.mem

/-- A store by PUSH or CALL is seen by the fetch of the very next step (20_memory.md section 5), while the storing instruction
itself runs with the bytes it was fetched with. Addresses wrap by the spec's own decision D2 (log entry 2). -/
def Obligations.StoreSeenByNextFetch : Prop :=
  ∀ opc : Opcodes, opc.Distinct → ∀ (s : State) (a : Byte) (r : RegIdx), s.status = .running → a.toNat = r.val →
    s.read (s.pc + 1) = a →
    (s.read s.pc = opc.push → ∃ t, stepWith opc s = .next t ∧
      t.fetch.ir = (if t.pc = s.pushAddr .scalar then s.reg r else s.read t.pc) ∧
      t.fetch.a = (if t.pc + 1 = s.pushAddr .scalar then s.reg r else s.read (t.pc + 1)) ∧
      t.fetch.b = (if t.pc + 2 = s.pushAddr .scalar then s.reg r else s.read (t.pc + 2))) ∧
    (s.read s.pc = opc.call → ∃ t, stepWith opc s = .next t ∧
      t.fetch.ir = (if t.pc = s.pushAddr .register then s.pc + 2 else s.read t.pc) ∧
      t.fetch.a = (if t.pc + 1 = s.pushAddr .register then s.pc + 2 else s.read (t.pc + 1)) ∧
      t.fetch.b = (if t.pc + 2 = s.pushAddr .register then s.pc + 2 else s.read (t.pc + 2)))

/-! ## Whole-machine rules, over every instruction -/

/-- Table S2 of 10_state.md: a register an instruction does not write is unchanged, and one it does not read has no influence on
anything but itself. -/
def Obligations.RegisterAccessFollowsTable : Prop :=
  ∀ (i : Instr) (s : State) (q : RegIdx), i.wellFormed = true →
    (∀ t, exec i s = .next t → i.writes q = false → t.reg q = s.reg q) ∧
    (∀ v, i.reads s q = false → i.writes q = false →
      exec i (s.setReg q v) = mapNext (fun t => t.setReg q v) (exec i s)) ∧
    (∀ v, i.reads s q = false → i.writes q = true → exec i (s.setReg q v) = exec i s)

/-- The flags (R18): only CMP writes them, all at once; from the first CMP onward exactly one is set; and of the flags only
`E` is ever read. -/
def Obligations.FlagsWrittenByCmpOnly : Prop :=
  (∀ (i : Instr) (s t : State), exec i s = .next t → (∀ a b, i ≠ .cmp a b) → t.fl = s.fl) ∧
  (∀ (a b : Byte) (s t : State), (Instr.cmp a b).wellFormed = true → exec (.cmp a b) s = .next t → t.fl.OneSet) ∧
  (∀ (i : Instr) (s t : State), exec i s = .next t → s.fl.OneSet → t.fl.OneSet) ∧
  (∀ (i : Instr) (s : State) (f : Flags), f.e = s.fl.e → (∀ a b, i ≠ .cmp a b) →
    exec i (s.setFl f) = mapNext (fun t => t.setFl f) (exec i s)) ∧
  (∀ (a b : Byte) (s : State) (f : Flags), (Instr.cmp a b).wellFormed = true →
    exec (.cmp a b) (s.setFl f) = exec (.cmp a b) s)

/-- The two stack pointers. Of the scalar `sp`: only PUSH and POP move it, down or up by one, and no other instruction's outcome
depends on it. Of `x[7]`: PUSH and POP touch it only as POP's destination, and it has no influence on what they do but as the
value PUSH 7 stores; for every register operand their pointer and address come from `sp`. Two separate pointers are the spec's
own decision D10, and the wrap of `sp` its decision D2 (log entries 14 and 2). -/
def Obligations.StackPointersAreIndependent : Prop :=
  (∀ (i : Instr) (s t : State), exec i s = .next t → (∀ a, i ≠ .push a) → (∀ a, i ≠ .pop a) → t.sp = s.sp) ∧
  (∀ (i : Instr) (s : State) (v : Byte), (∀ a, i ≠ .push a) → (∀ a, i ≠ .pop a) →
    exec i (s.setSp v) = mapNext (fun t => t.setSp v) (exec i s)) ∧
  (∀ (a : Byte) (s t : State), exec (.push a) s = .next t → t.reg 7 = s.reg 7) ∧
  (∀ (a : Byte) (s t : State), a.toNat ≠ 7 → exec (.pop a) s = .next t → t.reg 7 = s.reg 7) ∧
  (∀ (a v : Byte) (s : State), a.toNat ≠ 7 →
    exec (.push a) (s.setReg 7 v) = mapNext (fun t => t.setReg 7 v) (exec (.push a) s) ∧
      exec (.pop a) (s.setReg 7 v) = mapNext (fun t => t.setReg 7 v) (exec (.pop a) s)) ∧
  (∀ (v : Byte) (s : State), exec (.pop 7) (s.setReg 7 v) = exec (.pop 7) s) ∧
  (∀ (a : Byte) (r : RegIdx) (s : State), a.toNat = r.val →
    (∃ t, exec (.push a) s = .next t ∧ t.sp = s.sp - 1 ∧ t.read (s.sp - 1) = s.reg r ∧ KeepsMemBut s t (s.sp - 1)) ∧
      ∃ t, exec (.pop a) s = .next t ∧ t.sp = s.sp + 1 ∧ t.reg r = s.read s.sp)

/-- Table M1: only PUSH and CALL store, each one byte at the address its meaning computes, and an instruction's data reads
are the one byte of POP and of RET: no other byte influences what it does to the rest of the state or what it stores. -/
def Obligations.MemoryAccessFollowsTable : Prop :=
  (∀ (i : Instr) (s t : State), exec i s = .next t → ∀ b : Byte, i.storeAddr s ≠ some b → t.read b = s.read b) ∧
  (∀ (i : Instr) (s s' : State), i.wellFormed = true → s' = { s with mem := s'.mem } →
    (∀ b, i.loadAddr s = some b → s'.read b = s.read b) →
    ∃ t t', exec i s = .next t ∧ exec i s' = .next t' ∧ t' = { t with mem := t'.mem } ∧
      ∀ b, i.storeAddr s = some b → t'.read b = t.read b)

/-- The output: only PRN emits, and only appends. -/
def Obligations.OutputByPrnOnly : Prop :=
  ∀ (i : Instr) (s t : State), exec i s = .next t →
    ((∀ a, i ≠ .prn a) → t.out = s.out) ∧ (t.out = s.out ∨ ∃ r, t.out = s.out ++ [s.reg r])

/-- Table S3: the new `pc` of every well-formed instruction. That HLT and CALL 7 behave so are the spec's own decisions D14
and D11 (log entries 6 and 8), and the wrap its decision D2 (log entry 2). -/
def Obligations.PcFollowsTable : Prop :=
  ∀ (i : Instr) (s : State), i.wellFormed = true → ∃ t, exec i s = .next t ∧ t.pc.toNat = i.newPc s

/-! ## The ALU -/

/-- The laws of the 8-bit sum and product of 43_alu.md section 1; that they wrap is the spec's own decision D9 (log entry 9). -/
def Obligations.AluResultsAreExact : Prop :=
  ∀ va vb : Byte,
    (va.toNat + vb.toNat ≤ 255 → (aluSum va vb).toNat = va.toNat + vb.toNat) ∧
    (256 ≤ va.toNat + vb.toNat → (aluSum va vb).toNat = va.toNat + vb.toNat - 256) ∧
    (aluProduct va vb).toNat = (va.toNat * vb.toNat) % 256 ∧
    aluSum va vb = aluSum vb va ∧ aluProduct va vb = aluProduct vb va ∧
    aluSum va 0 = va ∧ aluProduct va 1 = va ∧ aluProduct va 0 = 0 ∧
    (∀ k : Nat, 1 ≤ k → k ≤ 256 → (aluSum va (BitVec.ofNat 8 (256 - k))).toNat = (va.toNat + 256 - k) % 256) ∧
    (aluSum va vb).toInt % 256 = (va.toInt + vb.toInt) % 256 ∧
    (aluProduct va vb).toInt % 256 = (va.toInt * vb.toInt) % 256

/-- An operation name the ALU does not have raises `UnsupportedAluOp`, recorded like the others, and no state of the engine
leads to it. What the report records is the spec's own decision D12 (log entry 6), and the wider operation type is the model's
(log entry 10), hence 'derived'. -/
def Obligations.UnsupportedAluOpIsUnreachable : Prop :=
  (∀ (name : String) (a b : RegIdx) (s : State),
    (aluHandler (.other name) s a b).status = faultStatus s .unsupportedAluOp ∧
      OnlyStatus s (aluHandler (.other name) s a b)) ∧
  (∀ (opc : Opcodes) (s t : State) (info : FaultInfo), stepWith opc s = .next t →
    t.status ≠ .faulted .unsupportedAluOp info)

/-- CMP followed by a conditional jump, all three relations (R96, Table A1). -/
def Obligations.CmpThenConditionalJump : Prop :=
  ∀ (s : State) (a b c : Byte) (r q j : RegIdx), a.toNat = r.val → b.toNat = q.val → c.toNat = j.val →
    ∃ t u v, exec (.cmp a b) s = .next t ∧ exec (.jeq c) t = .next u ∧ exec (.jne c) t = .next v ∧
      ((s.reg r).toNat > (s.reg q).toNat → t.fl = ⟨true, false, false⟩ ∧ PcPlus t u 2 ∧ v.pc = s.reg j) ∧
      ((s.reg r).toNat < (s.reg q).toNat → t.fl = ⟨false, true, false⟩ ∧ PcPlus t u 2 ∧ v.pc = s.reg j) ∧
      ((s.reg r).toNat = (s.reg q).toNat → t.fl = ⟨false, false, true⟩ ∧ u.pc = s.reg j ∧ PcPlus t v 2)

/-! ## Two and more instructions -/

/-- PUSH a followed at once by POP c, as the engine fetches them, copies `x[a]` to `x[c]` and restores `sp`, provided the
PUSH's store misses the bytes of the POP (an inference R87 marks as its own). -/
def Obligations.PushThenPopRestores : Prop :=
  ∀ opc : Opcodes, opc.Distinct → ∀ (s : State) (r c : RegIdx), s.status = .running →
    s.read s.pc = opc.push → s.read (s.pc + 1) = regByte r → s.read (s.pc + 2) = opc.pop →
    s.read (s.pc + 3) = regByte c → s.pushAddr .scalar ≠ s.pc + 2 → s.pushAddr .scalar ≠ s.pc + 3 →
    ∃ t u, stepWith opc s = .next t ∧ stepWith opc t = .next u ∧ u.reg c = s.reg r ∧ KeepsRegsBut s u c ∧
      u.sp = s.sp ∧ PcPlus s u 4 ∧ u.read (s.pushAddr .scalar) = s.reg r ∧ KeepsMemBut s u (s.pushAddr .scalar)

/-- Any number of pushes up to 256, then as many pops, return the values in reverse order and restore `sp` (an inference R87
marks as its own), for every `sp`. -/
def Obligations.PushesThenPopsReverse : Prop :=
  ∀ (regs : List RegIdx) (s : State) (c : RegIdx), regs.length ≤ 256 →
    ∃ t u, pushAll regs s = some t ∧ popValues c regs.length t = some ((regs.map s.reg).reverse, u) ∧
      u.sp = s.sp ∧ u.mem = t.mem

/-- A CALL and the RET reached from it: if in between `x[7]` is back where the CALL left it and the cell with the return
address is intact, control returns to the instruction after the CALL and `x[7]` is restored (an inference R102 marks as its
own; the wrap it needs from reset is decision D2, log entry 2). -/
def Obligations.CallThenRetReturns : Prop :=
  ∀ opc : Opcodes, opc.Distinct → ∀ (s : State) (r : RegIdx), s.status = .running →
    s.read s.pc = opc.call → s.read (s.pc + 1) = regByte r →
    ∃ t, stepWith opc s = .next t ∧
      ∀ u : State, u.status = .running → u.read u.pc = opc.ret → u.reg 7 = t.reg 7 →
        u.read (t.reg 7) = t.read (t.reg 7) →
        ∃ v, stepWith opc u = .next v ∧ PcPlus s v 2 ∧ v.reg 7 = s.reg 7

/-! ## Runs, the invariant, the refinement -/

/-- The invariant holds at reset, for every opcode map. Its canonical memory is the model's own representation (log entry 13, the
model's choice), and the reset flags are the spec's own decision D6 (log entry 4). -/
def Obligations.ResetMeetsInvariant : Prop := ∀ opc : Opcodes, State.reset.Inv opc

/-- Every step keeps the invariant, from every state that meets it: canonical memory, legal flags, and a status that tells
the truth about the state it stands in. Canonical memory is the model's own representation (log entry 13, the model's choice);
what a truthful status records and where `pc` stands rest on the spec's own decisions D4, D12 and D14 (log entries 5 and 6);
the second clause is about the default opcode bytes (log entry 1, presumed). -/
def Obligations.StepKeepsMachineInvariant : Prop :=
  (∀ (opc : Opcodes) (s t : State), s.Inv opc → stepWith opc s = .next t → t.Inv opc) ∧
  (∀ s t : State, s.Inv defaultOpcodes → step s = .next t → t.Inv defaultOpcodes)

/-- Over any run, from any state, the output only grows, by at most one value a step. -/
def Obligations.OutputOnlyGrowsAlongRuns : Prop :=
  ∀ (n : Nat) (s t : State), Host.Core.run Sys2Proof.core n s = .next t →
    ∃ l : List Byte, t.out = s.out ++ l ∧ l.length ≤ n

/-- A run goes no further than the first state that is not Running: any longer run is a stop (10_state.md section 5), which is
how the model says that there is no step (log entry 7, the model's choice). -/
def Obligations.RunStopsWhereItEnds : Prop :=
  ∀ (n m : Nat) (s t : State), Host.Core.run Sys2Proof.core n s = .next t → t.status ≠ .running →
    ∃ e, Host.Core.run Sys2Proof.core (n + (m + 1)) s = .fault e

/-- The engine refines the spec's pseudocode over plain numbers: from every state, for every opcode map, its step and the
pseudocode's agree on every element of the state, and on having no step. -/
def Obligations.StepRefinesPseudocode : Prop :=
  ∀ (opc : Opcodes) (s : State), Pseudo.step opc (Pseudo.ofState s) = Pseudo.ofResult (stepWith opc s)

/-! ## The host's side -/

/-- The trace tap: twelve fields in the order of the spec; addresses wrap by the spec's own decision D2 (log entry 2). -/
def Obligations.TraceShowsTwelveFields : Prop :=
  ∀ s : State, s.trace = [s.pc, s.read s.pc, s.read (s.pc + 1), s.read (s.pc + 2), s.reg 0, s.reg 1, s.reg 2, s.reg 3,
    s.reg 4, s.reg 5, s.reg 6, s.reg 7]

/-- Comment lines and blank lines leave no mark on the image a text gives. That a blank line is one of no characters is the
model's choice (log entry 15). -/
def Obligations.CommentsAndBlanksIgnored : Prop :=
  ∀ (marker : Char) (lines : List (List Char)),
    parseImage marker lines = parseImage marker (lines.filter (contributes marker)) ∧
      ∀ bytes, parseImage marker lines = some bytes → bytes.length = (lines.filter (contributes marker)).length
end

