-- ==== Sys2Proof/Laws/Decode.lean ====
section
/-! SUPPORT. What the decoder can answer. -/

namespace Sys2Proof

/-- What `decode` answers for the opcode byte `ir`, one case for each row of Table E2 and one for a byte that is in no row
(30_encoding.md R57, R60): each case gives the byte and the answer for any operand bytes. -/
inductive DecodeCase (opc : Opcodes) (ir : Byte) : Prop where
  | hlt (h : ir = opc.hlt) (hd : ∀ a b, decode opc ⟨ir, a, b⟩ = .ok .hlt)
  | ldi (h : ir = opc.ldi) (hd : ∀ a b, decode opc ⟨ir, a, b⟩ = .ok (.ldi a b))
  | prn (h : ir = opc.prn) (hd : ∀ a b, decode opc ⟨ir, a, b⟩ = .ok (.prn a))
  | push (h : ir = opc.push) (hd : ∀ a b, decode opc ⟨ir, a, b⟩ = .ok (.push a))
  | pop (h : ir = opc.pop) (hd : ∀ a b, decode opc ⟨ir, a, b⟩ = .ok (.pop a))
  | mul (h : ir = opc.mul) (hd : ∀ a b, decode opc ⟨ir, a, b⟩ = .ok (.mul a b))
  | add (h : ir = opc.add) (hd : ∀ a b, decode opc ⟨ir, a, b⟩ = .ok (.add a b))
  | cmp (h : ir = opc.cmp) (hd : ∀ a b, decode opc ⟨ir, a, b⟩ = .ok (.cmp a b))
  | call (h : ir = opc.call) (hd : ∀ a b, decode opc ⟨ir, a, b⟩ = .ok (.call a))
  | ret (h : ir = opc.ret) (hd : ∀ a b, decode opc ⟨ir, a, b⟩ = .ok .ret)
  | jmp (h : ir = opc.jmp) (hd : ∀ a b, decode opc ⟨ir, a, b⟩ = .ok (.jmp a))
  | jeq (h : ir = opc.jeq) (hd : ∀ a b, decode opc ⟨ir, a, b⟩ = .ok (.jeq a))
  | jne (h : ir = opc.jne) (hd : ∀ a b, decode opc ⟨ir, a, b⟩ = .ok (.jne a))
  | unsupported (h : ir ∉ opc.toList) (hd : ∀ a b, decode opc ⟨ir, a, b⟩ = .error (.unsupportedOpcode ir))

/-- Everything `decode` can answer, by the opcode byte alone. -/
theorem decode_case (opc : Opcodes) (ir : Byte) : DecodeCase opc ir := by
  by_cases h0 : ir = opc.hlt
  · exact .hlt h0 fun _ _ => by simp_all [decode]
  by_cases h1 : ir = opc.ldi
  · exact .ldi h1 fun _ _ => by simp_all [decode]
  by_cases h2 : ir = opc.prn
  · exact .prn h2 fun _ _ => by simp_all [decode]
  by_cases h3 : ir = opc.push
  · exact .push h3 fun _ _ => by simp_all [decode]
  by_cases h4 : ir = opc.pop
  · exact .pop h4 fun _ _ => by simp_all [decode]
  by_cases h5 : ir = opc.mul
  · exact .mul h5 fun _ _ => by simp_all [decode]
  by_cases h6 : ir = opc.add
  · exact .add h6 fun _ _ => by simp_all [decode]
  by_cases h7 : ir = opc.cmp
  · exact .cmp h7 fun _ _ => by simp_all [decode]
  by_cases h8 : ir = opc.call
  · exact .call h8 fun _ _ => by simp_all [decode]
  by_cases h9 : ir = opc.ret
  · exact .ret h9 fun _ _ => by simp_all [decode]
  by_cases h10 : ir = opc.jmp
  · exact .jmp h10 fun _ _ => by simp_all [decode]
  by_cases h11 : ir = opc.jeq
  · exact .jeq h11 fun _ _ => by simp_all [decode]
  by_cases h12 : ir = opc.jne
  · exact .jne h12 fun _ _ => by simp_all [decode]
  exact .unsupported (by simp [Opcodes.toList, *]) fun _ _ => by simp_all [decode]

/-- A refused slot has an opcode byte that is in no row. -/
theorem not_mem_of_decode_error {opc : Opcodes} {w : Slot} {e : DecodeError} (hw : decode opc w = .error e) :
    w.ir ∉ opc.toList := by
  cases decode_case opc w.ir with
  | unsupported h _ => exact h
  | _ _ hd => exact absurd (hw.symm.trans (hd w.a w.b)) (by simp)

end Sys2Proof
end

