-- ==== Sys2Proof/Laws/Memory.lean ====
section
/-! SUPPORT. The laws of the memory operations: what a read gives after each, and that each keeps the canonical form. -/

namespace Sys2Proof.Machine

theorem Memory.read_of_absent (m : Memory) (a : Nat) (h : ∀ c ∈ m, c.1 ≠ a) : Memory.read m a = Config.memReset := by
  induction m with
  | nil => rfl
  | cons c rest ih =>
    have hc : c.1 ≠ a := h c (by simp)
    simp only [Memory.read, if_neg hc]
    exact ih fun d hd => h d (by simp [hd])

theorem Memory.read_erase_self (m : Memory) (a : Nat) : Memory.read (Memory.erase m a) a = Config.memReset :=
  Memory.read_of_absent _ _ fun c hc => by simpa using (List.mem_filter.mp hc).2

theorem Memory.read_erase_other (m : Memory) {a b : Nat} (h : b ≠ a) :
    Memory.read (Memory.erase m a) b = Memory.read m b := by
  induction m with
  | nil => rfl
  | cons c rest ih =>
    obtain ⟨k, v⟩ := c
    by_cases hk : k = a
    · subst hk
      have : Memory.erase ((k, v) :: rest) k = Memory.erase rest k := by simp [Memory.erase]
      rw [this, ih]
      simp [Memory.read, Ne.symm h]
    · have : Memory.erase ((k, v) :: rest) a = (k, v) :: Memory.erase rest a := by simp [Memory.erase, hk]
      rw [this]
      simp only [Memory.read, ih]

theorem Memory.read_place_self (m : Memory) (a : Nat) (v : Byte) (h : ∀ c ∈ m, c.1 ≠ a) :
    Memory.read (Memory.place m a v) a = v := by
  induction m with
  | nil => simp [Memory.place, Memory.read]
  | cons c rest ih =>
    obtain ⟨k, w⟩ := c
    have hk : k ≠ a := h (k, w) (by simp)
    have ih := ih fun d hd => h d (by simp [hd])
    by_cases hlt : a < k <;> simp [Memory.place, Memory.read, hlt, hk, ih]

theorem Memory.read_place_other (m : Memory) {a b : Nat} (v : Byte) (h : b ≠ a) :
    Memory.read (Memory.place m a v) b = Memory.read m b := by
  induction m with
  | nil => simp [Memory.place, Memory.read, Ne.symm h]
  | cons c rest ih =>
    obtain ⟨k, w⟩ := c
    by_cases hlt : a < k <;> simp [Memory.place, Memory.read, hlt, ih, Ne.symm h]

theorem Memory.not_mem_erase (m : Memory) (a : Nat) : ∀ c ∈ Memory.erase m a, c.1 ≠ a :=
  fun c hc => by simpa using (List.mem_filter.mp hc).2

/-- Read after write, in every memory, canonical or not (20_memory.md R33). -/
theorem Memory.read_write (m : Memory) (a b : Nat) (v : Byte) :
    Memory.read (Memory.write m a v) b = if b = a then v else Memory.read m b := by
  unfold Memory.write
  by_cases hv : v = Config.memReset <;> by_cases hb : b = a
  · simp [hv, hb, Memory.read_erase_self]
  · simp [hv, hb, Memory.read_erase_other]
  · subst hb
    simp [hv, Memory.read_place_self _ _ _ (Memory.not_mem_erase m b)]
  · simp [hv, hb, Memory.read_place_other, Memory.read_erase_other]

theorem Memory.mem_place {m : Memory} {a : Nat} {v : Byte} {c : Host.Cell} (h : c ∈ Memory.place m a v) :
    c = (a, v) ∨ c ∈ m := by
  induction m with
  | nil => simpa [Memory.place] using h
  | cons d rest ih =>
    obtain ⟨k, w⟩ := d
    by_cases hlt : a < k
    · simpa [Memory.place, hlt] using h
    · simp only [Memory.place, hlt, if_false, List.mem_cons] at h
      rcases h with h | h
      · exact .inr (by simp [h])
      · exact (ih h).imp id fun h => by simp [h]

theorem Memory.place_pairwise {m : Memory} {a : Nat} (v : Byte) (hs : m.Pairwise fun c d => c.1 < d.1)
    (ha : ∀ c ∈ m, c.1 ≠ a) : (Memory.place m a v).Pairwise fun c d => c.1 < d.1 := by
  induction m with
  | nil => simp [Memory.place]
  | cons d rest ih =>
    obtain ⟨k, w⟩ := d
    obtain ⟨hd, hrest⟩ := List.pairwise_cons.mp hs
    have hk : k ≠ a := ha (k, w) (by simp)
    by_cases hlt : a < k
    · simp only [Memory.place, hlt, if_true]
      refine List.pairwise_cons.mpr ⟨fun c hc => ?_, hs⟩
      rcases List.mem_cons.mp hc with rfl | hc
      · exact hlt
      · exact lt_trans hlt (hd c hc)
    · simp only [Memory.place, hlt, if_false]
      refine List.pairwise_cons.mpr ⟨fun c hc => ?_, ih hrest fun c hc => ha c (by simp [hc])⟩
      rcases Memory.mem_place hc with rfl | hc
      · show k < a
        omega
      · exact hd c hc

theorem Memory.erase_wf {m : Memory} (a : Nat) (h : m.wf) : (Memory.erase m a).wf :=
  ⟨h.1.sublist List.filter_sublist, fun c hc => h.2 c (List.mem_filter.mp hc).1⟩

/-- A write inside the address space keeps the canonical form. -/
theorem Memory.write_wf {m : Memory} {a : Nat} (v : Byte) (ha : a < Config.memSize) (h : m.wf) :
    (Memory.write m a v).wf := by
  have he := Memory.erase_wf a h
  unfold Memory.write
  by_cases hv : v = Config.memReset
  · simpa only [hv, if_true] using he
  · simp only [hv, if_false]
    refine ⟨Memory.place_pairwise v he.1 (Memory.not_mem_erase m a), fun c hc => ?_⟩
    rcases Memory.mem_place hc with rfl | hc
    · exact ⟨ha, hv⟩
    · exact he.2 c hc

/-- Writing a sequence that stays inside the address space keeps the canonical form. -/
theorem Memory.writeAll_wf (bytes : List Byte) : ∀ {m : Memory} {a : Nat}, a + bytes.length ≤ Config.memSize → m.wf →
    (Memory.writeAll m a bytes).wf := by
  induction bytes with
  | nil => exact fun _ h => h
  | cons v rest ih =>
    intro m a hlen h
    simp only [List.length_cons] at hlen
    exact ih (by omega) (Memory.write_wf v (by omega) h)

/-- The store of one byte of the engine's keeps the canonical form: every byte address lies inside the address space. -/
theorem State.write_wf {s : State} (a v : Byte) (h : s.mem.wf) : (s.write a v).mem.wf :=
  Memory.write_wf v a.isLt h

theorem State.reset_mem_wf : State.reset.mem.wf := by decide

/-- Read after write of the engine's bytes (20_memory.md R32, R33). -/
theorem State.read_write (s : State) (a b v : Byte) : (s.write a v).read b = if b = a then v else s.read b := by
  simp only [State.read, State.write, Memory.read_write, BitVec.toNat_inj]

end Sys2Proof.Machine
end

