-- ==== Sys2Proof/Laws/Ops.lean ====
section
/-! SUPPORT. For each shared operation, what it can do: the lemmas a proof cites instead of unfolding the operation. -/

namespace Sys2Proof.Machine

variable (s : State)

/-! ## Registers and memory through each update -/

theorem State.reg_setReg (r q : RegIdx) (v : Byte) : (s.setReg r v).reg q = if q = r then v else s.reg q := by
  simp only [State.reg, State.setReg, Vector.getElem_set, Fin.ext_iff, eq_comm]

@[simp] theorem State.reg_setReg_self (r : RegIdx) (v : Byte) : (s.setReg r v).reg r = v := by
  simp [State.reg_setReg]

@[simp] theorem State.reg_write (a v : Byte) (q : RegIdx) : (s.write a v).reg q = s.reg q := rfl
@[simp] theorem State.reg_setPc (v : Byte) (q : RegIdx) : (s.setPc v).reg q = s.reg q := rfl
@[simp] theorem State.reg_setSp (v : Byte) (q : RegIdx) : (s.setSp v).reg q = s.reg q := rfl
@[simp] theorem State.reg_setFl (v : Flags) (q : RegIdx) : (s.setFl v).reg q = s.reg q := rfl
@[simp] theorem State.reg_setStatus (v : Status) (q : RegIdx) : (s.setStatus v).reg q = s.reg q := rfl
@[simp] theorem State.reg_emit (v : Byte) (q : RegIdx) : (s.emit v).reg q = s.reg q := rfl

@[simp] theorem State.read_setReg (r : RegIdx) (v b : Byte) : (s.setReg r v).read b = s.read b := rfl
@[simp] theorem State.read_setPc (v b : Byte) : (s.setPc v).read b = s.read b := rfl
@[simp] theorem State.read_setSp (v b : Byte) : (s.setSp v).read b = s.read b := rfl
@[simp] theorem State.read_setFl (v : Flags) (b : Byte) : (s.setFl v).read b = s.read b := rfl
@[simp] theorem State.read_setStatus (v : Status) (b : Byte) : (s.setStatus v).read b = s.read b := rfl
@[simp] theorem State.read_emit (v b : Byte) : (s.emit v).read b = s.read b := rfl

/-- `pc +8 n` as the spec writes it, modulo 256 (00_scope.md R8). -/
theorem byte_add_toNat (v : Byte) (n : Nat) : (v + BitVec.ofNat 8 n).toNat = (v.toNat + n) % 256 := by
  simp [BitVec.toNat_add]

/-! ## The register operands -/

theorem regIdx_eq_some {a : Byte} {r : RegIdx} : regIdx a = some r ↔ a.toNat = r.val := by
  unfold regIdx
  split <;> simp only [Option.some.injEq, Fin.ext_iff, reduceCtorEq, false_iff]
  omega

theorem regIdx_eq_none {a : Byte} : regIdx a = none ↔ 7 < a.toNat := by
  unfold regIdx
  split <;> simp only [reduceCtorEq, false_iff, true_iff] <;> omega

theorem withReg_of_index {a : Byte} {r : RegIdx} (h : a.toNat = r.val) (k : RegIdx → State) :
    withReg s a k = .next (k r) := by
  simp [withReg, regIdx_eq_some.mpr h]

theorem withReg_of_high {a : Byte} (h : 7 < a.toNat) (k : RegIdx → State) :
    withReg s a k = .next (s.raise .regIndexOutOfRange) := by
  simp [withReg, regIdx_eq_none.mpr h]

theorem withRegs_of_index {a b : Byte} {r q : RegIdx} (ha : a.toNat = r.val) (hb : b.toNat = q.val)
    (k : RegIdx → RegIdx → State) : withRegs s a b k = .next (k r q) := by
  simp [withRegs, regIdx_eq_some.mpr ha, regIdx_eq_some.mpr hb]

theorem withRegs_of_high {a b : Byte} (h : 7 < a.toNat ∨ 7 < b.toNat) (k : RegIdx → RegIdx → State) :
    withRegs s a b k = .next (s.raise .regIndexOutOfRange) := by
  unfold withRegs
  split
  · next ha hb =>
    rw [regIdx_eq_some] at ha hb
    omega
  · rfl

/-- Everything `withReg` can do. -/
theorem withReg_cases (a : Byte) (k : RegIdx → State) :
    (∃ r : RegIdx, a.toNat = r.val ∧ withReg s a k = .next (k r)) ∨
      (7 < a.toNat ∧ withReg s a k = .next (s.raise .regIndexOutOfRange)) := by
  by_cases h : a.toNat < 8
  · exact .inl ⟨⟨a.toNat, h⟩, rfl, withReg_of_index s rfl k⟩
  · exact .inr ⟨by omega, withReg_of_high s (by omega) k⟩

/-- Everything `withRegs` can do. -/
theorem withRegs_cases (a b : Byte) (k : RegIdx → RegIdx → State) :
    (∃ r q : RegIdx, a.toNat = r.val ∧ b.toNat = q.val ∧ withRegs s a b k = .next (k r q)) ∨
      ((7 < a.toNat ∨ 7 < b.toNat) ∧ withRegs s a b k = .next (s.raise .regIndexOutOfRange)) := by
  by_cases h : a.toNat < 8 ∧ b.toNat < 8
  · exact .inl ⟨⟨a.toNat, h.1⟩, ⟨b.toNat, h.2⟩, rfl, rfl, withRegs_of_index s rfl rfl k⟩
  · exact .inr ⟨by omega, withRegs_of_high s (by omega) k⟩

/-! ## Faults, the ALU, the stacks, the jumps -/

/-- Taking a fault changes `status` and nothing else (60_exceptions.md R132). -/
theorem State.raise_eq (c : FaultCause) : s.raise c = { s with status := .faulted c s.faultInfo } := rfl

/-- What the shared ALU handler does for each operation name. -/
theorem aluHandler_cases (op : AluOp) (a b : RegIdx) :
    (op = .add ∧ aluHandler op s a b = (s.setReg a (s.reg a + s.reg b)).advance 3) ∨
    (op = .mul ∧ aluHandler op s a b = (s.setReg a (s.reg a * s.reg b)).advance 3) ∨
    (op = .cmp ∧ aluHandler op s a b = (s.setFl (compareFlags (s.reg a) (s.reg b))).advance 3) ∨
    (∃ n, op = .other n ∧ aluHandler op s a b = s.raise .unsupportedAluOp) := by
  cases op <;> simp [aluHandler, alu, aluSum, aluProduct]

/-- A push through the scalar pointer moves `sp` and stores one byte. -/
theorem State.pushVia_scalar (v : Byte) : s.pushVia .scalar v = (s.setSp (s.sp - 1)).write (s.sp - 1) v := rfl

/-- A push through register 7 moves `x[7]` and stores one byte. -/
theorem State.pushVia_register (v : Byte) :
    s.pushVia .register v = (s.setReg 7 (s.reg 7 - 1)).write (s.reg 7 - 1) v := rfl

/-- A pop through the scalar pointer moves `sp` only. -/
theorem State.popVia_scalar : s.popVia .scalar = s.setSp (s.sp + 1) := rfl

/-- A pop through register 7 moves `x[7]` only. -/
theorem State.popVia_register : s.popVia .register = s.setReg 7 (s.reg 7 + 1) := rfl

/-- What CMP leaves in the flags, as numbers (43_alu.md R96, Table A1). -/
theorem compareFlags_eq (va vb : Byte) :
    compareFlags va vb = ⟨decide (vb.toNat < va.toNat), decide (va.toNat < vb.toNat), decide (va = vb)⟩ := by
  unfold compareFlags
  by_cases h : vb.toNat < va.toNat
  · have h2 : ¬ va.toNat < vb.toNat := by omega
    have h3 : va ≠ vb := fun e => by subst e; omega
    simp [h, h2, h3]
  · by_cases h2 : va.toNat < vb.toNat
    · have h3 : va ≠ vb := fun e => by subst e; omega
      simp [h, h2, h3]
    · have h3 : va = vb := BitVec.eq_of_toNat_eq (by omega)
      subst h3
      simp

end Sys2Proof.Machine
end

