-- ==== Sys2Proof/Laws/Exec.lean ====
section
/-! SUPPORT. What `exec` and the step can do: one inversion lemma for each, which a proof cites instead of unfolding
them. -/

namespace Sys2Proof.Machine

theorem isRegByte_true {a : Byte} : isRegByte a = true ↔ a.toNat ≤ 7 := by simp [isRegByte]

theorem isRegByte_false {a : Byte} : isRegByte a = false ↔ 7 < a.toNat := by simp [isRegByte]

/-- CALL's push, as updates of `x[7]` and of one cell. -/
theorem callPush_eq (s : State) : callPush s = (s.setReg 7 (s.reg 7 - 1)).write (s.reg 7 - 1) (s.pc + 2) := rfl

/-- A register named by an instruction's only register operand, or the fault. -/
theorem exec_of_withReg {i : Instr} {s : State} {a : Byte} {k : RegIdx → State} (he : exec i s = withReg s a k)
    (hw : i.wellFormed = isRegByte a) :
    (i.wellFormed = false ∧ exec i s = .next (s.raise .regIndexOutOfRange)) ∨
      ∃ r : RegIdx, a.toNat = r.val ∧ exec i s = .next (k r) := by
  rw [he, hw, isRegByte_false]
  exact (withReg_cases s a k).symm

/-- The registers named by an instruction's two register operands, or the fault. -/
theorem exec_of_withRegs {i : Instr} {s : State} {a b : Byte} {k : RegIdx → RegIdx → State}
    (he : exec i s = withRegs s a b k) (hw : i.wellFormed = (isRegByte a && isRegByte b)) :
    (i.wellFormed = false ∧ exec i s = .next (s.raise .regIndexOutOfRange)) ∨
      ∃ r q : RegIdx, a.toNat = r.val ∧ b.toNat = q.val ∧ exec i s = .next (k r q) := by
  rw [he, hw, Bool.and_eq_false_iff, isRegByte_false, isRegByte_false]
  exact (withRegs_cases s a b k).symm

/-- What `exec` does with `i` in `s`, one case for each instruction with register operands that name registers, giving the next
state its rule gives, and one for an operand that names none. -/
inductive ExecCase (i : Instr) (s : State) : Prop where
  | raised (hw : i.wellFormed = false) (he : exec i s = .next (s.raise .regIndexOutOfRange))
  | ldi (a b : Byte) (r : RegIdx) (hi : i = .ldi a b) (ha : a.toNat = r.val)
      (he : exec i s = .next ((s.setReg r b).advance 3))
  | prn (a : Byte) (r : RegIdx) (hi : i = .prn a) (ha : a.toNat = r.val)
      (he : exec i s = .next ((s.emit (s.reg r)).advance 2))
  | push (a : Byte) (r : RegIdx) (hi : i = .push a) (ha : a.toNat = r.val)
      (he : exec i s = .next (((s.setSp (s.sp - 1)).write (s.sp - 1) (s.reg r)).advance 2))
  | pop (a : Byte) (r : RegIdx) (hi : i = .pop a) (ha : a.toNat = r.val)
      (he : exec i s = .next (((s.setReg r (s.read s.sp)).setSp (s.sp + 1)).advance 2))
  | mul (a b : Byte) (r q : RegIdx) (hi : i = .mul a b) (ha : a.toNat = r.val) (hb : b.toNat = q.val)
      (he : exec i s = .next ((s.setReg r (s.reg r * s.reg q)).advance 3))
  | add (a b : Byte) (r q : RegIdx) (hi : i = .add a b) (ha : a.toNat = r.val) (hb : b.toNat = q.val)
      (he : exec i s = .next ((s.setReg r (s.reg r + s.reg q)).advance 3))
  | cmp (a b : Byte) (r q : RegIdx) (hi : i = .cmp a b) (ha : a.toNat = r.val) (hb : b.toNat = q.val)
      (he : exec i s = .next ((s.setFl (compareFlags (s.reg r) (s.reg q))).advance 3))
  | call (a : Byte) (r : RegIdx) (hi : i = .call a) (ha : a.toNat = r.val)
      (he : exec i s = .next ((callPush s).setPc ((callPush s).reg r)))
  | ret (hi : i = .ret)
      (he : exec i s = .next ((s.setPc (s.read (s.reg 7))).setReg 7 (s.reg 7 + 1)))
  | jmp (a : Byte) (r : RegIdx) (hi : i = .jmp a) (ha : a.toNat = r.val)
      (he : exec i s = .next (s.setPc (s.reg r)))
  | jeq (a : Byte) (r : RegIdx) (hi : i = .jeq a) (ha : a.toNat = r.val)
      (he : exec i s = .next (jumpIf s.fl.e s r))
  | jne (a : Byte) (r : RegIdx) (hi : i = .jne a) (ha : a.toNat = r.val)
      (he : exec i s = .next (jumpIf (!s.fl.e) s r))
  | hlt (hi : i = .hlt)
      (he : exec i s = .next (s.setStatus .halted))

/-- Everything `exec` can do. -/
theorem exec_case (i : Instr) (s : State) : ExecCase i s := by
  cases i with
  | ldi a b => exact (exec_of_withReg rfl rfl).elim (fun h => .raised h.1 h.2) fun ⟨r, ha, he⟩ => .ldi a b r rfl ha he
  | prn a => exact (exec_of_withReg rfl rfl).elim (fun h => .raised h.1 h.2) fun ⟨r, ha, he⟩ => .prn a r rfl ha he
  | push a => exact (exec_of_withReg rfl rfl).elim (fun h => .raised h.1 h.2) fun ⟨r, ha, he⟩ => .push a r rfl ha he
  | pop a => exact (exec_of_withReg rfl rfl).elim (fun h => .raised h.1 h.2) fun ⟨r, ha, he⟩ => .pop a r rfl ha he
  | mul a b =>
    exact (exec_of_withRegs rfl rfl).elim (fun h => .raised h.1 h.2) fun ⟨r, q, ha, hb, he⟩ => .mul a b r q rfl ha hb he
  | add a b =>
    exact (exec_of_withRegs rfl rfl).elim (fun h => .raised h.1 h.2) fun ⟨r, q, ha, hb, he⟩ => .add a b r q rfl ha hb he
  | cmp a b =>
    exact (exec_of_withRegs rfl rfl).elim (fun h => .raised h.1 h.2) fun ⟨r, q, ha, hb, he⟩ => .cmp a b r q rfl ha hb he
  | call a => exact (exec_of_withReg rfl rfl).elim (fun h => .raised h.1 h.2) fun ⟨r, ha, he⟩ => .call a r rfl ha he
  | ret => exact .ret rfl rfl
  | jmp a => exact (exec_of_withReg rfl rfl).elim (fun h => .raised h.1 h.2) fun ⟨r, ha, he⟩ => .jmp a r rfl ha he
  | jeq a => exact (exec_of_withReg rfl rfl).elim (fun h => .raised h.1 h.2) fun ⟨r, ha, he⟩ => .jeq a r rfl ha he
  | jne a => exact (exec_of_withReg rfl rfl).elim (fun h => .raised h.1 h.2) fun ⟨r, ha, he⟩ => .jne a r rfl ha he
  | hlt => exact .hlt rfl rfl

/-- Everything a dispatch can do: run the instruction the slot decodes to, or take `UnsupportedOpcode`. -/
theorem dispatchSlot_cases (opc : Opcodes) (s : State) (w : Slot) :
    (∃ i, decode opc w = .ok i ∧ dispatchSlot opc s w = exec i s) ∨
      (w.ir ∉ opc.toList ∧ dispatchSlot opc s w = .next (s.raise .unsupportedOpcode)) := by
  cases hd : decode opc w with
  | ok i => exact .inl ⟨i, rfl, by simp only [dispatchSlot, hd]⟩
  | error e => exact .inr ⟨not_mem_of_decode_error hd, by cases e; simp only [dispatchSlot, hd]⟩

/-- A step runs only from Running, and is then the dispatch of the fetched slot. -/
theorem stepWith_running (opc : Opcodes) {s : State} (h : s.status = .running) :
    stepWith opc s = dispatchSlot opc s s.fetch := by
  simp [stepWith, h]

theorem running_of_stepWith {opc : Opcodes} {s t : State} (h : stepWith opc s = .next t) : s.status = .running := by
  unfold stepWith at h
  split at h <;> first | assumption | cases h

end Sys2Proof.Machine
end

