-- ==== Sys2Proof/Laws/PerInstr.lean ====
section
/-! SUPPORT. Facts about every instruction as syntax, one lemma per constructor. -/

namespace Sys2Proof.Laws

/-- The encoding of an instruction is as long as its width, from 1 to 3 bytes, whatever the opcode bytes
(30_encoding.md R50, R52). -/
def EncodeWidth.Statement (i : Instr) : Prop :=
  ∀ opc : Opcodes, (encode opc i).length = i.width ∧ 1 ≤ i.width ∧ i.width ≤ 3

theorem EncodeWidth.ldi (a b : Byte) : EncodeWidth.Statement (.ldi a b) := fun _ => by simp [encode, Instr.width]
theorem EncodeWidth.prn (a : Byte) : EncodeWidth.Statement (.prn a) := fun _ => by simp [encode, Instr.width]
theorem EncodeWidth.push (a : Byte) : EncodeWidth.Statement (.push a) := fun _ => by simp [encode, Instr.width]
theorem EncodeWidth.pop (a : Byte) : EncodeWidth.Statement (.pop a) := fun _ => by simp [encode, Instr.width]
theorem EncodeWidth.mul (a b : Byte) : EncodeWidth.Statement (.mul a b) := fun _ => by simp [encode, Instr.width]
theorem EncodeWidth.add (a b : Byte) : EncodeWidth.Statement (.add a b) := fun _ => by simp [encode, Instr.width]
theorem EncodeWidth.cmp (a b : Byte) : EncodeWidth.Statement (.cmp a b) := fun _ => by simp [encode, Instr.width]
theorem EncodeWidth.call (a : Byte) : EncodeWidth.Statement (.call a) := fun _ => by simp [encode, Instr.width]
theorem EncodeWidth.ret : EncodeWidth.Statement .ret := fun _ => by simp [encode, Instr.width]
theorem EncodeWidth.jmp (a : Byte) : EncodeWidth.Statement (.jmp a) := fun _ => by simp [encode, Instr.width]
theorem EncodeWidth.jeq (a : Byte) : EncodeWidth.Statement (.jeq a) := fun _ => by simp [encode, Instr.width]
theorem EncodeWidth.jne (a : Byte) : EncodeWidth.Statement (.jne a) := fun _ => by simp [encode, Instr.width]
theorem EncodeWidth.hlt : EncodeWidth.Statement .hlt := fun _ => by simp [encode, Instr.width]

end Sys2Proof.Laws
end

