-- ==== Sys2Proof/Tests/Slice0.lean ====
section
/-! SUPPORT. Tests of the model, with expected values from 95_test_vectors.md (V, S: its vectors) or written out by hand from
the encoding tables, and a witness for the hypotheses of every obligation that has some. -/

namespace Sys2Proof.Tests

open Sys2Proof.Machine

/-! ## Ill-formed terms are refused by the check (30_encoding.md R55) -/

theorem test_wf_ldi : (Instr.ldi 8 0).wellFormed = false ∧ (Instr.ldi 7 0xFF).wellFormed = true := by decide
theorem test_wf_prn : (Instr.prn 8).wellFormed = false ∧ (Instr.prn 7).wellFormed = true := by decide
theorem test_wf_push : (Instr.push 9).wellFormed = false ∧ (Instr.push 7).wellFormed = true := by decide
theorem test_wf_pop : (Instr.pop 0x2A).wellFormed = false ∧ (Instr.pop 0).wellFormed = true := by decide
theorem test_wf_mul : (Instr.mul 8 0).wellFormed = false ∧ (Instr.mul 0 8).wellFormed = false := by decide
theorem test_wf_add : (Instr.add 8 0).wellFormed = false ∧ (Instr.add 0 8).wellFormed = false := by decide
theorem test_wf_cmp : (Instr.cmp 8 0).wellFormed = false ∧ (Instr.cmp 0 0xFF).wellFormed = false := by decide
theorem test_wf_call : (Instr.call 8).wellFormed = false ∧ (Instr.call 7).wellFormed = true := by decide
theorem test_wf_jmp : (Instr.jmp 0x80).wellFormed = false ∧ (Instr.jmp 7).wellFormed = true := by decide
theorem test_wf_jeq : (Instr.jeq 9).wellFormed = false ∧ (Instr.jeq 7).wellFormed = true := by decide
theorem test_wf_jne : (Instr.jne 8).wellFormed = false ∧ (Instr.jne 7).wellFormed = true := by decide
theorem test_wf_no_operand : Instr.ret.wellFormed = true ∧ Instr.hlt.wellFormed = true := by decide

/-! ## Decoding: words written out from Table E2 (30_encoding.md R57), third byte, second byte, opcode byte -/

theorem test_decode_ldi : decodeTableWord 24 0b001010100000001110000010 = some (.ldi 3 0x2A) := by decide
theorem test_decode_prn : decodeTableWord 16 0b0000010101000111 = some (.prn 5) := by decide
theorem test_decode_push : decodeTableWord 16 0b0000011101000101 = some (.push 7) := by decide
theorem test_decode_pop : decodeTableWord 16 0b0000000101000110 = some (.pop 1) := by decide
theorem test_decode_mul : decodeTableWord 24 0b000000100000010110100010 = some (.mul 5 2) := by decide
theorem test_decode_add : decodeTableWord 24 0b000000010000000010100000 = some (.add 0 1) := by decide
theorem test_decode_cmp : decodeTableWord 24 0b000001000000001110100111 = some (.cmp 3 4) := by decide
theorem test_decode_call : decodeTableWord 16 0b0000001001010000 = some (.call 2) := by decide
theorem test_decode_ret : decodeTableWord 8 0b00010001 = some .ret := by decide
theorem test_decode_jmp : decodeTableWord 16 0b0000011001010100 = some (.jmp 6) := by decide
theorem test_decode_jeq : decodeTableWord 16 0b0000001001010101 = some (.jeq 2) := by decide
theorem test_decode_jne : decodeTableWord 16 0b0000010001010110 = some (.jne 4) := by decide
theorem test_decode_hlt : decodeTableWord 8 0b00000001 = some .hlt := by decide

/-- 0x00 (V71), 0xA1 (V73) and 0x83 (V74) are opcodes of no instruction. -/
theorem test_decode_refuses : decode defaultOpcodes ⟨0x00, 0, 0⟩ = .error (.unsupportedOpcode 0x00) ∧
    decode defaultOpcodes ⟨0xA1, 0, 1⟩ = .error (.unsupportedOpcode 0xA1) ∧
    decode defaultOpcodes ⟨0x83, 0, 1⟩ = .error (.unsupportedOpcode 0x83) := by decide

/-- The image of program P1 (95_test_vectors.md part 3). -/
theorem test_encode : ([.ldi 0 8, .ldi 1 9, .add 0 1, .prn 0, .hlt] : List Instr).flatMap (encode defaultOpcodes) =
    [0x82, 0x00, 0x08, 0x82, 0x01, 0x09, 0xA0, 0x00, 0x01, 0x47, 0x00, 0x01] := by decide

/-! ## One step: the vectors of part 2 of 95_test_vectors.md -/

/-- The reset state with `pc` set and three bytes stored from `pc` upward: a start state of part 2. -/
def start (pc ir a b : Byte) : State := (State.reset.setPc pc).placeSlot ⟨ir, a, b⟩

/-- The next state of a result. -/
def nextOf : Result → Option State
  | .next t => some t
  | .fault _ => none
  | .refused _ => none

/-- A view of the state after one step. -/
def after {α : Type} (view : State → α) (s : State) : Option α := (nextOf (step s)).map view

/-- V6: LDI across the top of memory. -/
theorem test_ldi_across_top : after (fun t => (t.pc, t.reg 0)) (start 0xFE 0x82 0x00 0x2A) = some (0x01, 0x2A) := by decide
/-- V5: LDI with register operand 8. -/
theorem test_ldi_faults : after (fun t => (t.pc, t.status)) (start 0x20 0x82 0x08 0x01) =
    some (0x20, .faulted .regIndexOutOfRange ⟨0x20, 0x82, 0x08, 0x01⟩) := by decide
/-- V8: PRN of 0xFF. -/
theorem test_prn : after (fun t => (t.pc, t.out)) ((start 0x20 0x47 0x02 0x00).setReg 2 0xFF) = some (0x22, [255]) := by decide
/-- V10, V11: PRN ignores its third byte and checks its operand. -/
theorem test_prn_bytes : after State.out ((start 0x20 0x47 0x00 0xFF).setReg 0 0x05) = some [5] ∧
    after State.out (start 0x20 0x47 0x08 0x00) = some [] := by decide
/-- V13: PUSH at `sp = 0`. -/
theorem test_push_wraps : after (fun t => (t.sp, t.read 0xFF)) (((start 0x20 0x45 0x00 0x00).setReg 0 0x2A).setSp 0x00) =
    some (0xFF, 0x2A) := by decide
/-- V15: PUSH onto its own operand byte. -/
theorem test_push_own_operand : after (fun t => (t.pc, t.sp, t.read 0x06)) ((start 0x05 0x45 0x00 0x00).setReg 0 0x07) =
    some (0x07, 0x06, 0x07) := by decide
/-- V19: POP at `sp = 0xFF`. -/
theorem test_pop_wraps : after (fun t => (t.sp, t.reg 0)) (((start 0x20 0x46 0x00 0x00).write 0xFF 0x33).setSp 0xFF) =
    some (0x00, 0x33) := by decide
/-- V20: POP into register 7. -/
theorem test_pop_r7 : after (fun t => (t.sp, t.reg 7)) (((start 0x20 0x46 0x07 0x00).write 0x06 0xF0).setSp 0x06) =
    some (0x07, 0xF0) := by decide
/-- V24: MUL overflow. -/
theorem test_mul_overflow : after (State.reg · 0) (((start 0x20 0xA2 0x00 0x01).setReg 0 0xFF).setReg 1 0xFF) =
    some 0x01 := by decide
/-- V26: MUL of a register with itself. -/
theorem test_mul_same : after (State.reg · 2) ((start 0x20 0xA2 0x02 0x02).setReg 2 0x0C) = some 0x90 := by decide
/-- V32: ADD wraps. -/
theorem test_add_wraps : after (State.reg · 0) (((start 0x20 0xA0 0x00 0x01).setReg 0 0xFF).setReg 1 0xFF) =
    some 0xFE := by decide
/-- V35: ADD to register 7 leaves `sp` and the flags. -/
theorem test_add_r7 : after (fun t => (t.reg 7, t.sp, t.fl))
    ((((start 0x20 0xA0 0x07 0x00).setReg 7 0xF4).setReg 0 2).setFl ⟨false, true, false⟩) =
    some (0xF6, 0x07, ⟨false, true, false⟩) := by decide
/-- V42: CMP is unsigned. -/
theorem test_cmp_unsigned : after State.fl (((start 0x20 0xA7 0x00 0x01).setReg 0 0x80).setReg 1 0x7F) =
    some ⟨true, false, false⟩ := by decide
/-- V44: CMP clears the old flag. -/
theorem test_cmp_clears : after State.fl
    ((((start 0x20 0xA7 0x00 0x01).setReg 0 5).setReg 1 5).setFl ⟨true, false, false⟩) =
    some ⟨false, false, true⟩ := by decide
/-- V48: CALL through register 7. -/
theorem test_call_r7 : after (fun t => (t.pc, t.reg 7, t.read 0x4F)) ((start 0x20 0x50 0x07 0x00).setReg 7 0x50) =
    some (0x4F, 0x4F, 0x22) := by decide
/-- V49: CALL at the top of memory. -/
theorem test_call_top : after (fun t => (t.pc, t.reg 7, t.read 0x7F))
    (((start 0xFF 0x50 0x01 0x00).setReg 1 0x30).setReg 7 0x80) = some (0x30, 0x7F, 0x01) := by decide
/-- V51: RET wraps `x[7]`. -/
theorem test_ret_wraps : after (fun t => (t.pc, t.reg 7)) (((start 0x0C 0x11 0x00 0x00).setReg 7 0xFF).write 0xFF 0x05) =
    some (0x05, 0x00) := by decide
/-- V54: RET ignores the two bytes after it. -/
theorem test_ret_ignores : after (fun t => (t.pc, t.reg 7)) (((start 0x20 0x11 0xFF 0xFF).setReg 7 0xF3).write 0xF3 0x22) =
    some (0x22, 0xF4) := by decide
/-- V55: JMP. -/
theorem test_jmp : after State.pc ((start 0x20 0x54 0x00 0x00).setReg 0 0x08) = some 0x08 := by decide
/-- V57: JMP with register operand 8. -/
theorem test_jmp_faults : after State.status (start 0x20 0x54 0x08 0x00) =
    some (.faulted .regIndexOutOfRange ⟨0x20, 0x54, 0x08, 0x00⟩) := by decide
/-- V58, V61: JEQ taken, and not taken at the top of memory. -/
theorem test_jeq : after State.pc (((start 0x0C 0x55 0x02 0x00).setReg 2 0x11).setFl ⟨false, false, true⟩) = some 0x11 ∧
    after State.pc ((start 0xFF 0x55 0x02 0x00).setFl ⟨true, false, false⟩) = some 0x01 := by decide
/-- V62: JEQ not taken checks its operand all the same. -/
theorem test_jeq_faults : after State.status ((start 0x20 0x55 0x09 0x00).setFl ⟨true, false, false⟩) =
    some (.faulted .regIndexOutOfRange ⟨0x20, 0x55, 0x09, 0x00⟩) := by decide
/-- V65, V66: JNE not taken, and taken before any CMP. -/
theorem test_jne : after State.pc (((start 0x18 0x56 0x04 0x00).setReg 4 0x0F).setFl ⟨false, false, true⟩) = some 0x1A ∧
    after State.pc ((start 0x18 0x56 0x04 0x00).setReg 4 0x0F) = some 0x0F := by decide
/-- V67: JNE not taken checks its operand all the same. -/
theorem test_jne_faults : after State.status ((start 0x20 0x56 0x08 0x00).setFl ⟨false, false, true⟩) =
    some (.faulted .regIndexOutOfRange ⟨0x20, 0x56, 0x08, 0x00⟩) := by decide
/-- V69: HLT ignores the two bytes after it. -/
theorem test_hlt : after (fun t => (t.pc, t.status)) (start 0x0B 0x01 0xFF 0xFF) = some (0x0B, .halted) := by decide
/-- V70: HLT at the top of memory. -/
theorem test_hlt_top : after (fun t => (t.pc, t.status)) (start 0xFF 0x01 0x00 0x00) = some (0xFF, .halted) := by decide
/-- V71: zeroed memory is no instruction. -/
theorem test_zero_faults : after (fun t => (t.pc, t.status)) (start 0x20 0x00 0x00 0x00) =
    some (0x20, .faulted .unsupportedOpcode ⟨0x20, 0x00, 0x00, 0x00⟩) := by decide
/-- V75: the opcode is tested before the operands. -/
theorem test_opcode_first : after State.status (start 0x20 0x02 0xFF 0xFF) =
    some (.faulted .unsupportedOpcode ⟨0x20, 0x02, 0xFF, 0xFF⟩) := by decide

/-- Every opcode runs as the first instruction after reset, placed with `withFetchWord`: `pc` as Table S3 gives it. -/
theorem test_first_after_reset :
    after State.pc (State.reset.withFetchWord 24 0x080082) = some 3 ∧ after State.pc (State.reset.withFetchWord 16 0x0047) = some 2 ∧
    after State.pc (State.reset.withFetchWord 16 0x0045) = some 2 ∧ after State.pc (State.reset.withFetchWord 16 0x0046) = some 2 ∧
    after State.pc (State.reset.withFetchWord 24 0x0000A2) = some 3 ∧ after State.pc (State.reset.withFetchWord 24 0x0000A0) = some 3 ∧
    after State.pc (State.reset.withFetchWord 24 0x0000A7) = some 3 ∧ after State.pc (State.reset.withFetchWord 16 0x0150) = some 0 ∧
    after State.pc (State.reset.withFetchWord 8 0x11) = some 0x11 ∧ after State.pc (State.reset.withFetchWord 16 0x0054) = some 0 ∧
    after State.pc (State.reset.withFetchWord 16 0x0055) = some 2 ∧ after State.pc (State.reset.withFetchWord 16 0x0056) = some 0 ∧
    after State.status (State.reset.withFetchWord 8 0x01) = some .halted := by decide

/-! ## The host's side -/

/-- V77: a load after reset. -/
theorem test_load : (launch [0x82, 0x00, 0x08]).map (fun t => (t.read 0, t.read 1, t.read 2, t.read 3)) =
    some (0x82, 0x00, 0x08, 0x00) := by decide

/-- Table X2: a second load without reset has no result (a load in mid-run, Halted, Faulted). -/
theorem test_second_load : ((launch [0x82]).bind (·.load [0x01])) = none ∧ (State.reset.setPc 3).load [0x01] = none ∧
    (State.reset.setStatus .halted).load [] = none ∧ (State.reset.raise .unsupportedOpcode).load [] = none := by decide

/-- S9: the first trace line of program P1. -/
theorem test_trace_line : (launch [0x82, 0x00, 0x08, 0x82]).map (State.traceLine .upper) =
    some "00 82 00 08 00 00 00 00 00 00 00 00".toList := by decide

/-- S5: comment lines, blank lines and trailing remarks of a text image. -/
theorem test_text_image : parseImage commentMarker
    ["# first scenario".toList, "10000010 # LDI R0,8".toList, "00000000".toList, [], "00001000".toList] =
    some [0x82, 0x00, 0x08] := by decide

/-- A fault's report carries its cause code and record (V71, Table T1); a clean halt none (V68); a decimal line (S6). -/
theorem test_report : (after State.report (start 0x20 0x00 0x00 0x00)) = some (some (some (1, ⟨0x20, 0x00, 0x00, 0x00⟩))) ∧
    (after State.report (start 0x0B 0x01 0x00 0x00)) = some (some none) ∧
    (State.reset.emit 17).outLines = ["17"] := by decide

/-! ## Witnesses: every hypothesis of every obligation is met, each clause at a boundary -/

theorem default_distinct : defaultOpcodes.Distinct := by decide

/-- What the clauses of a statement about an instruction with one register operand assume: distinct opcode bytes, an operand
that names a register (the lowest, the highest), an operand just above. -/
theorem one_register_operand : defaultOpcodes.Distinct ∧ (0 : Byte).toNat = (0 : RegIdx).val ∧
    (7 : Byte).toNat = (7 : RegIdx).val ∧ 7 < (8 : Byte).toNat := by decide

/-- The same for two register operands, each of them just above in turn. -/
theorem two_register_operands : defaultOpcodes.Distinct ∧
    ((0 : Byte).toNat = (0 : RegIdx).val ∧ (7 : Byte).toNat = (7 : RegIdx).val) ∧
    (7 < (8 : Byte).toNat ∨ 7 < (0 : Byte).toNat) ∧ (7 < (7 : Byte).toNat ∨ 7 < (8 : Byte).toNat) := by decide

theorem witness_LaunchPlacesImage : ([0x82, 0x00, 0x08] : List Byte).length ≤ 256 ∧ 2 < ([0x82, 0x00, 0x08] : List Byte).length ∧
    ([0x82, 0x00, 0x08] : List Byte).length ≤ (3 : Byte).toNat ∧ (List.replicate 256 (0x01 : Byte)).length ≤ 256 :=
  ⟨by decide, by decide, by decide, List.length_replicate.le⟩

theorem witness_OversizedImageRefused : 256 < (List.replicate 257 (0x01 : Byte)).length :=
  List.length_replicate.ge

theorem witness_LoadOnlyBeforeTheRun : State.reset.setPc 1 ≠ State.reset ∧
    (∃ t, step (start 0x20 0x82 0x00 0x08) = .next t) ∧ (List.replicate 256 (0x01 : Byte)).length ≤ 256 :=
  ⟨by decide, ⟨_, rfl⟩, List.length_replicate.le⟩

theorem witness_LdiLoadsImmediate : defaultOpcodes.Distinct ∧ (7 : Byte).toNat = (7 : RegIdx).val ∧ 7 < (8 : Byte).toNat ∧
    (0 : RegIdx) ≠ 7 := by decide

theorem witness_PrnEmitsRegister : defaultOpcodes.Distinct ∧ (7 : Byte).toNat = (7 : RegIdx).val ∧ 7 < (8 : Byte).toNat := by
  decide

theorem witness_PushStoresBelowSp : defaultOpcodes.Distinct ∧ (7 : Byte).toNat = (7 : RegIdx).val ∧ 7 < (8 : Byte).toNat ∧
    (0x05 : Byte) ≠ State.reset.pushAddr .scalar := by decide

theorem witness_PopLoadsAtSp : defaultOpcodes.Distinct ∧ (7 : Byte).toNat = (7 : RegIdx).val ∧ 7 < (8 : Byte).toNat ∧
    (0 : RegIdx) ≠ 7 := by decide

theorem witness_MulWritesProduct : defaultOpcodes.Distinct ∧
    ((0 : Byte).toNat = (0 : RegIdx).val ∧ (7 : Byte).toNat = (7 : RegIdx).val) ∧
    (7 < (8 : Byte).toNat ∨ 7 < (0 : Byte).toNat) ∧ (7 < (7 : Byte).toNat ∨ 7 < (8 : Byte).toNat) := two_register_operands

theorem witness_AddWritesSum : defaultOpcodes.Distinct ∧
    ((0 : Byte).toNat = (0 : RegIdx).val ∧ (7 : Byte).toNat = (7 : RegIdx).val) ∧
    (7 < (8 : Byte).toNat ∨ 7 < (0 : Byte).toNat) ∧ (7 < (7 : Byte).toNat ∨ 7 < (8 : Byte).toNat) := two_register_operands

theorem witness_CmpSetsExactlyOneFlag : defaultOpcodes.Distinct ∧
    ((0 : Byte).toNat = (0 : RegIdx).val ∧ (7 : Byte).toNat = (7 : RegIdx).val) ∧
    (7 < (8 : Byte).toNat ∨ 7 < (0 : Byte).toNat) ∧ (7 < (7 : Byte).toNat ∨ 7 < (8 : Byte).toNat) ∧
    (∃ u, exec (.add 0 7) State.reset = .next u) ∧ ∀ c d, Instr.add 0 7 ≠ .cmp c d :=
  ⟨by decide, by decide, by decide, by decide, ⟨_, rfl⟩, by simp⟩

theorem witness_CallPushesReturnAddress : defaultOpcodes.Distinct ∧ (7 : Byte).toNat = (7 : RegIdx).val ∧
    7 < (8 : Byte).toNat ∧ (0 : RegIdx) ≠ 7 ∧ (0x05 : Byte) ≠ State.reset.pushAddr .register := by decide

theorem witness_RetPopsPc : defaultOpcodes.Distinct ∧ (0 : RegIdx) ≠ 7 := by decide

theorem witness_JmpJumpsToRegister : defaultOpcodes.Distinct ∧ (0 : Byte).toNat = (0 : RegIdx).val ∧
    (7 : Byte).toNat = (7 : RegIdx).val ∧ 7 < (8 : Byte).toNat := one_register_operand

theorem witness_JeqJumpsOnEqual : defaultOpcodes.Distinct ∧ (7 : Byte).toNat = (7 : RegIdx).val ∧ 7 < (8 : Byte).toNat ∧
    (State.reset.setFl ⟨false, false, true⟩).fl.e = true ∧ State.reset.fl.e = false := by decide

theorem witness_JneJumpsOnNotEqual : defaultOpcodes.Distinct ∧ (7 : Byte).toNat = (7 : RegIdx).val ∧ 7 < (8 : Byte).toNat ∧
    State.reset.fl.e = false ∧ (State.reset.setFl ⟨false, false, true⟩).fl.e = true := by decide

theorem witness_HltHalts : defaultOpcodes.Distinct := default_distinct

theorem witness_StepRunsDecodedInstr : (start 0xFF 0xA0 0x00 0x01).status = .running ∧
    decode defaultOpcodes ⟨(start 0xFF 0xA0 0x00 0x01).read 0xFF, (start 0xFF 0xA0 0x00 0x01).read (0xFF + 1),
      (start 0xFF 0xA0 0x00 0x01).read (0xFF + 2)⟩ = .ok (.add 0 1) := by decide

theorem witness_FetchReadsThreeBytesModulo256 :
    (0x00 : Byte).toNat = ((State.reset.setPc 0xFF).pc.toNat + 1) % 256 ∧
    (0x01 : Byte).toNat = ((State.reset.setPc 0xFF).pc.toNat + 2) % 256 := by decide

theorem witness_PlacedWordRunsNext : decodeTableWord 24 0x080082 = some (.ldi 0 8) ∧ decodeTableWord 8 0x11 = some .ret ∧
    ((3 : Byte) ≠ State.reset.pc ∧ (3 : Byte) ≠ State.reset.pc + 1 ∧ (3 : Byte) ≠ State.reset.pc + 2) := by decide

theorem witness_RunningStateAlwaysSteps : State.reset.status = .running := by decide

theorem witness_EndedStateHasNoStep : (State.reset.setStatus .halted).status = .halted ∧
    (State.reset.raise .unsupportedOpcode).status = .faulted .unsupportedOpcode ⟨0, 0, 0, 0⟩ := by decide

theorem witness_StepFollowsTestOrder :
    ((start 0x20 0x01 0 0).status = .running ∧ (start 0x20 0x01 0 0).read 0x20 = defaultOpcodes.hlt) ∧
    ((start 0x20 0x02 0 0).status = .running ∧ (start 0x20 0x02 0 0).read 0x20 ∉ defaultOpcodes.toList) ∧
    ((start 0x20 0x45 8 0).status = .running ∧ decode defaultOpcodes (start 0x20 0x45 8 0).fetch = .ok (.push 8) ∧
      (Instr.push 8).wellFormed = false) ∧
    ((start 0x20 0x45 7 0).status = .running ∧ decode defaultOpcodes (start 0x20 0x45 7 0).fetch = .ok (.push 7) ∧
      (Instr.push 7).wellFormed = true ∧ (start 0x20 0x45 7 0).read 0x20 ≠ defaultOpcodes.hlt) := by decide

theorem witness_UnsupportedOpcodeFaults : (start 0x20 0x00 0 0).status = .running ∧
    (start 0x20 0x00 0 0).read (start 0x20 0x00 0 0).pc ∉ defaultOpcodes.toList := by decide

theorem witness_RegIndexAboveSevenFaults : (Instr.jeq 8).wellFormed = false ∧ (Instr.mul 7 8).wellFormed = false ∧
    (Instr.ldi 0xFF 0).wellFormed = false := by decide

theorem witness_StoppingStepChangesOnlyStatus :
    (∃ t, stepWith defaultOpcodes (start 0x20 0x01 0 0) = .next t ∧ t.status ≠ .running) ∧
    (∃ t, stepWith defaultOpcodes (start 0x20 0x45 8 0) = .next t ∧ t.status ≠ .running) :=
  ⟨⟨_, rfl, by decide⟩, ⟨_, rfl, by decide⟩⟩

theorem witness_DispatchIsTotalMap : defaultOpcodes.Distinct ∧ (0x01 : Byte) = defaultOpcodes.hlt ∧
    (0x82 : Byte) = defaultOpcodes.ldi ∧ (0x47 : Byte) = defaultOpcodes.prn ∧ (0x45 : Byte) = defaultOpcodes.push ∧
    (0x46 : Byte) = defaultOpcodes.pop ∧ (0xA2 : Byte) = defaultOpcodes.mul ∧ (0xA0 : Byte) = defaultOpcodes.add ∧
    (0xA7 : Byte) = defaultOpcodes.cmp ∧ (0x50 : Byte) = defaultOpcodes.call ∧ (0x11 : Byte) = defaultOpcodes.ret ∧
    (0x54 : Byte) = defaultOpcodes.jmp ∧ (0x55 : Byte) = defaultOpcodes.jeq ∧ (0x56 : Byte) = defaultOpcodes.jne ∧
    (0xA1 : Byte) ∉ defaultOpcodes.toList ∧ decode defaultOpcodes ⟨0x82, 7, 0xFF⟩ = .ok (.ldi 7 0xFF) := by decide

theorem witness_IgnoredBytesHaveNoEffect :
    (decode defaultOpcodes ⟨0x11, 0xFF, 0xFF⟩ = .ok .ret ∧ Instr.ret.width = 1) ∧
    (decode defaultOpcodes ⟨0x47, 0x07, 0xFF⟩ = .ok (.prn 7) ∧ (Instr.prn 7).width = 2 ∧ (Instr.prn 7).wellFormed = true) ∧
    (decode defaultOpcodes ⟨0x47, 0x08, 0xFF⟩ = .ok (.prn 8) ∧ (Instr.prn 8).width = 2 ∧ (Instr.prn 8).wellFormed = false) := by
  decide

theorem witness_DecodeOfEncode : defaultOpcodes.Distinct := default_distinct

theorem witness_EncodeOfDecode : decode defaultOpcodes ⟨0x46, 0xFF, 0x01⟩ = .ok (.pop 0xFF) := by decide

theorem witness_WriteChangesOneCell : (0x00 : Byte) ≠ 0xFF := by decide

/-- Two cells written in either order. -/
theorem witness_EqualReadsEqualMemories : ((State.reset.write 3 5).write 255 7).mem.wf ∧
    ((State.reset.write 255 7).write 3 5).mem.wf ∧
    KeepsMem ((State.reset.write 3 5).write 255 7) ((State.reset.write 255 7).write 3 5) := by
  refine ⟨by decide, by decide, fun a => ?_⟩
  by_cases h : a = 255#8 <;> simp [State.read_write, h]

/-- A PUSH whose store is the next opcode byte (`pc + 2`), and a CALL whose store is its own target cell. -/
theorem witness_StoreSeenByNextFetch : defaultOpcodes.Distinct ∧ (7 : Byte).toNat = (7 : RegIdx).val ∧
    ((start 0x04 0x45 7 0).status = .running ∧ (start 0x04 0x45 7 0).read (0x04 + 1) = 7 ∧
      (start 0x04 0x45 7 0).read 0x04 = defaultOpcodes.push ∧ (start 0x04 0x45 7 0).pushAddr .scalar = 0x04 + 2) ∧
    ((start 0x04 0x50 7 0).status = .running ∧ (start 0x04 0x50 7 0).read (0x04 + 1) = 7 ∧
      (start 0x04 0x50 7 0).read 0x04 = defaultOpcodes.call) := by decide

theorem witness_RegisterAccessFollowsTable :
    ((Instr.add 0 7).wellFormed = true ∧ (∃ t, exec (.add 0 7) State.reset = .next t) ∧ (Instr.add 0 7).writes 7 = false) ∧
    ((Instr.add 0 7).reads State.reset 1 = false ∧ (Instr.add 0 7).writes 1 = false) ∧
    ((Instr.ldi 7 1).wellFormed = true ∧ (Instr.ldi 7 1).reads State.reset 7 = false ∧ (Instr.ldi 7 1).writes 7 = true) :=
  ⟨⟨by decide, ⟨_, rfl⟩, by decide⟩, by decide, by decide⟩

theorem witness_FlagsWrittenByCmpOnly :
    ((∃ t, exec .ret State.reset = .next t) ∧ ∀ a b, Instr.ret ≠ .cmp a b) ∧
    ((Instr.cmp 0 7).wellFormed = true ∧ ∃ t, exec (.cmp 0 7) State.reset = .next t) ∧
    (∃ t, exec (.prn 0) (State.reset.setFl ⟨true, false, false⟩) = .next t ∧ (State.reset.setFl ⟨true, false, false⟩).fl.OneSet) ∧
    ((⟨true, true, false⟩ : Flags).e = State.reset.fl.e ∧ ∀ a b, Instr.jne 0 ≠ .cmp a b) :=
  ⟨⟨⟨_, rfl⟩, by simp⟩, ⟨by decide, _, rfl⟩, ⟨_, rfl, .inl rfl⟩, rfl, by simp⟩

theorem witness_StackPointersAreIndependent :
    ((∃ t, exec .ret State.reset = .next t) ∧ (∀ a, Instr.ret ≠ .push a) ∧ ∀ a, Instr.ret ≠ .pop a) ∧
    (∃ t, exec (.push 7) State.reset = .next t) ∧ ((6 : Byte).toNat ≠ 7 ∧ ∃ t, exec (.pop 6) State.reset = .next t) ∧
    (8 : Byte).toNat ≠ 7 ∧ (7 : Byte).toNat = (7 : RegIdx).val :=
  ⟨⟨⟨_, rfl⟩, by simp, by simp⟩, ⟨_, rfl⟩, ⟨by decide, _, rfl⟩, by decide, by decide⟩

/-- A PUSH with an address outside its store, a POP in two states whose memories differ but not at `sp`, and a PUSH, which loads
nothing, with the address it stores to. -/
theorem witness_MemoryAccessFollowsTable :
    ((∃ t, exec (.push 0) State.reset = .next t) ∧ (Instr.push 0).storeAddr State.reset ≠ some 0x07) ∧
    ((Instr.pop 0).wellFormed = true ∧ State.reset.write 0x09 1 = { State.reset with mem := (State.reset.write 0x09 1).mem } ∧
      ∀ b, (Instr.pop 0).loadAddr State.reset = some b → (State.reset.write 0x09 1).read b = State.reset.read b) ∧
    ((Instr.push 0).loadAddr State.reset = none ∧ (Instr.push 0).storeAddr State.reset = some 0x06) :=
  ⟨⟨⟨_, rfl⟩, by decide⟩, ⟨by decide, rfl, fun b h => by cases h; decide⟩, by decide⟩

theorem witness_OutputByPrnOnly : (∃ t, exec (.prn 7) State.reset = .next t) ∧ (∃ t, exec .hlt State.reset = .next t) ∧
    ∀ a, Instr.hlt ≠ .prn a := ⟨⟨_, rfl⟩, ⟨_, rfl⟩, by simp⟩

theorem witness_PcFollowsTable : (Instr.call 7).wellFormed = true ∧ (Instr.jeq 0).wellFormed = true := by decide

theorem witness_AluResultsAreExact : (200 : Byte).toNat + (55 : Byte).toNat ≤ 255 ∧ 256 ≤ (200 : Byte).toNat + (56 : Byte).toNat ∧
    (1 ≤ 1 ∧ 1 ≤ 256) ∧ (1 ≤ 256 ∧ 256 ≤ 256) := by decide

theorem witness_UnsupportedAluOpIsUnreachable : ∃ t, stepWith defaultOpcodes (start 0x20 0xA0 0 1) = .next t := ⟨_, rfl⟩

theorem witness_CmpThenConditionalJump :
    (0 : Byte).toNat = (0 : RegIdx).val ∧ (1 : Byte).toNat = (1 : RegIdx).val ∧ (7 : Byte).toNat = (7 : RegIdx).val ∧
    ((State.reset.setReg 0 0x80).reg 0).toNat > ((State.reset.setReg 0 0x80).reg 1).toNat ∧
    ((State.reset.setReg 1 0xFF).reg 0).toNat < ((State.reset.setReg 1 0xFF).reg 1).toNat ∧
    (State.reset.reg 0).toNat = (State.reset.reg 1).toNat := by decide

/-- S3's instance: `45 00 46 00` at 0x20. -/
theorem witness_PushThenPopRestores : defaultOpcodes.Distinct ∧
    ((start 0x20 0x45 0 0x46).status = .running ∧ (start 0x20 0x45 0 0x46).read 0x20 = defaultOpcodes.push ∧
      (start 0x20 0x45 0 0x46).read (0x20 + 1) = regByte 0 ∧ (start 0x20 0x45 0 0x46).read (0x20 + 2) = defaultOpcodes.pop ∧
      (start 0x20 0x45 0 0x46).read (0x20 + 3) = regByte 0 ∧ (start 0x20 0x45 0 0x46).pushAddr .scalar ≠ 0x20 + 2 ∧
      (start 0x20 0x45 0 0x46).pushAddr .scalar ≠ 0x20 + 3) := by decide

theorem witness_PushesThenPopsReverse : (List.replicate 256 (7 : RegIdx)).length ≤ 256 := List.length_replicate.le

/-- A CALL, and a state at a RET whose `x[7]` and return cell are those the CALL left (V46, V51). -/
theorem witness_CallThenRetReturns : defaultOpcodes.Distinct ∧
    ((start 0x03 0x50 1 0).status = .running ∧ (start 0x03 0x50 1 0).read 0x03 = defaultOpcodes.call ∧
      (start 0x03 0x50 1 0).read (0x03 + 1) = regByte 1) ∧
    ∃ t, stepWith defaultOpcodes (start 0x03 0x50 1 0) = .next t ∧ (t.write t.pc 0x11).status = .running ∧
      (t.write t.pc 0x11).read t.pc = defaultOpcodes.ret ∧ (t.write t.pc 0x11).reg 7 = t.reg 7 ∧
      (t.write t.pc 0x11).read (t.reg 7) = t.read (t.reg 7) :=
  ⟨by decide, by decide, _, rfl, by decide, by decide, by decide, by decide⟩

/-- Reset meets the invariant and has a step; so does a state at a HLT. -/
theorem witness_StepKeepsMachineInvariant :
    (State.reset.Inv defaultOpcodes ∧ ∃ t, stepWith defaultOpcodes State.reset = .next t) ∧
    ((start 0x20 0x01 0 0).Inv defaultOpcodes ∧ ∃ t, step (start 0x20 0x01 0 0) = .next t) :=
  ⟨⟨⟨by decide, .inl rfl, trivial⟩, _, rfl⟩, ⟨by decide, .inl rfl, trivial⟩, _, rfl⟩

theorem witness_OutputOnlyGrowsAlongRuns : ∃ t, Host.Core.run Sys2Proof.core 1 (start 0x20 0x47 7 0) = .next t := ⟨_, rfl⟩

theorem witness_RunStopsWhereItEnds :
    ∃ t, Host.Core.run Sys2Proof.core 1 (start 0x20 0x01 0 0) = .next t ∧ t.status ≠ .running := ⟨_, rfl, by decide⟩

theorem witness_CommentsAndBlanksIgnored : parseImage '#' ["# x".toList, [], "10000010".toList] = some [0x82] := by decide

end Sys2Proof.Tests
end

/-! The flags: what an instruction leaves in them, and what they influence (10_state.md R18). -/

namespace Sys2Proof.Machine

/-! ## Updates of the state that an operand check lets through -/

/-- An update `g` of the state that commutes with the fault and with the handler commutes with the handler under its operand
check. -/
theorem withReg_map (g : State → State) (s : State) {k k' : RegIdx → State} (a : Byte)
    (hraise : (g s).raise .regIndexOutOfRange = g (s.raise .regIndexOutOfRange)) (hk : ∀ r, k' r = g (k r)) :
    withReg (g s) a k' = mapNext g (withReg s a k) := by
  obtain ⟨r, ha, he⟩ | ⟨ha, he⟩ := withReg_cases s a k
  · rw [he, withReg_of_index _ ha, hk]; rfl
  · rw [he, withReg_of_high _ ha, hraise]; rfl

/-- The same for two register operands. -/
theorem withRegs_map (g : State → State) (s : State) {k k' : RegIdx → RegIdx → State} (a b : Byte)
    (hraise : (g s).raise .regIndexOutOfRange = g (s.raise .regIndexOutOfRange)) (hk : ∀ r q, k' r q = g (k r q)) :
    withRegs (g s) a b k' = mapNext g (withRegs s a b k) := by
  obtain ⟨r, q, ha, hb, he⟩ | ⟨hab, he⟩ := withRegs_cases s a b k
  · rw [he, withRegs_of_index _ ha hb, hk]; rfl
  · rw [he, withRegs_of_high _ hab, hraise]; rfl

/-! ## What an instruction leaves in the flags -/

theorem compareFlags_oneSet (va vb : Byte) : (compareFlags va vb).OneSet := by
  unfold compareFlags
  split_ifs
  · exact .inl rfl
  · exact .inr (.inl rfl)
  · exact .inr (.inr rfl)

theorem jumpIf_fl (taken : Bool) (s : State) (r : RegIdx) : (jumpIf taken s r).fl = s.fl := by
  cases taken <;> rfl

/-- The flags after any instruction: a CMP that runs leaves a comparison's, everything else (a CMP that faults too) leaves
them alone. -/
theorem fl_cases_of_exec {i : Instr} {s t : State} (h : exec i s = .next t) :
    (∃ a b va vb, i = .cmp a b ∧ t.fl = compareFlags va vb) ∨
      t.fl = s.fl ∧ ((∃ a b, i = .cmp a b) → i.wellFormed = false) := by
  have ht {u : State} (he : exec i s = .next u) : t = u := Host.Outcome.next.inj (h.symm.trans he)
  cases exec_case i s with
  | cmp a b r q hi _ _ he => exact .inl ⟨a, b, _, _, hi, by rw [ht he]; rfl⟩
  | raised hw he => exact .inr ⟨by rw [ht he]; rfl, fun _ => hw⟩
  | jeq a r hi _ he => exact .inr ⟨by rw [ht he, jumpIf_fl], by simp [hi]⟩
  | jne a r hi _ he => exact .inr ⟨by rw [ht he, jumpIf_fl], by simp [hi]⟩
  | ldi _ _ _ hi _ he | prn _ _ hi _ he | push _ _ hi _ he | pop _ _ hi _ he | mul _ _ _ _ hi _ _ he
  | add _ _ _ _ hi _ _ he | call _ _ hi _ he | ret hi he | jmp _ _ hi _ he | hlt hi he =>
    exact .inr ⟨by rw [ht he]; rfl, by simp [hi]⟩

/-! ## What the flags influence -/

/-- A jump whose condition is the same under the new flags carries them along. -/
theorem jumpIf_setFl {taken taken' : Bool} (h : taken' = taken) (s : State) (f : Flags) (r : RegIdx) :
    jumpIf taken' (s.setFl f) r = (jumpIf taken s r).setFl f := by
  subst h
  cases taken' <;> rfl

/-- Flags that agree in `E` pass through every instruction but CMP: JEQ and JNE read `E` and nothing else is read. -/
theorem exec_setFl_of_ne_cmp {i : Instr} {s : State} {f : Flags} (hE : f.e = s.fl.e) (hi : ∀ a b, i ≠ .cmp a b) :
    exec i (s.setFl f) = mapNext (fun t => t.setFl f) (exec i s) := by
  cases i with
  | cmp a b => exact absurd rfl (hi a b)
  | jeq a => exact withReg_map (·.setFl f) s a rfl (jumpIf_setFl hE s f)
  | jne a => exact withReg_map (·.setFl f) s a rfl (jumpIf_setFl (congrArg (!·) hE) s f)
  | mul a b | add a b => exact withRegs_map (·.setFl f) s a b rfl fun _ _ => rfl
  | ldi a _ | prn a | push a | pop a | call a | jmp a => exact withReg_map (·.setFl f) s a rfl fun _ => rfl
  | ret | hlt => rfl

/-- A well-formed CMP does not see the old flags: it writes all three (43_alu.md R95). -/
theorem exec_cmp_setFl {a b : Byte} (hw : (Instr.cmp a b).wellFormed = true) (s : State) (f : Flags) :
    exec (.cmp a b) (s.setFl f) = exec (.cmp a b) s := by
  obtain ⟨ha, hb⟩ := Bool.and_eq_true_iff.mp hw
  have hr : a.toNat < 8 := Nat.lt_succ_of_le (isRegByte_true.mp ha)
  have hq : b.toNat < 8 := Nat.lt_succ_of_le (isRegByte_true.mp hb)
  calc exec (.cmp a b) (s.setFl f)
    _ = .next (aluHandler .cmp (s.setFl f) ⟨a.toNat, hr⟩ ⟨b.toNat, hq⟩) := withRegs_of_index _ rfl rfl _
    _ = .next (aluHandler .cmp s ⟨a.toNat, hr⟩ ⟨b.toNat, hq⟩) := rfl
    _ = exec (.cmp a b) s := (withRegs_of_index s rfl rfl _).symm

/-- Settles O35: the first three clauses from what any instruction leaves in the flags, the last two from what the flags
influence. -/
theorem flagsWrittenByCmpOnly : Obligations.FlagsWrittenByCmpOnly := by
  refine ⟨fun i s t h hi => ?_, fun a b s t hw h => ?_, fun i s t h hs => ?_,
    fun _ _ _ hE hi => exec_setFl_of_ne_cmp hE hi, fun _ _ s f hw => exec_cmp_setFl hw s f⟩
  · obtain ⟨a, b, _, _, rfl, _⟩ | ⟨hfl, _⟩ := fl_cases_of_exec h
    · exact absurd rfl (hi a b)
    · exact hfl
  · obtain ⟨_, _, va, vb, _, hfl⟩ | ⟨_, hbad⟩ := fl_cases_of_exec h
    · exact hfl ▸ compareFlags_oneSet va vb
    · exact absurd (hw.symm.trans (hbad ⟨a, b, rfl⟩)) (by decide)
  · obtain ⟨_, _, va, vb, _, hfl⟩ | ⟨hfl, _⟩ := fl_cases_of_exec h
    · exact hfl ▸ compareFlags_oneSet va vb
    · exact hfl ▸ hs

end Sys2Proof.Machine


/-! A memory write: the one cell it changes and what it leaves alone (20_memory.md R33). -/

namespace Sys2Proof.Machine

theorem State.read_write_self (s : State) (a v : Byte) : (s.write a v).read a = v :=
  (State.read_write s a a v).trans (if_pos rfl)

theorem State.write_keepsMemBut (s : State) (a v : Byte) : KeepsMemBut s (s.write a v) a := fun b hb =>
  (State.read_write s a b v).trans (if_neg hb)

/-- Settles O31: the two reads from `State.read_write`, the rest from the field lemmas of `State.write`. -/
theorem writeChangesOneCell : Obligations.WriteChangesOneCell := fun s a v =>
  ⟨State.read_write_self s a v, State.write_keepsMemBut s a v, State.reg_write s a v, State.write_pc s a v,
    State.write_sp s a v, State.write_fl s a v, State.write_status s a v, State.write_out s a v⟩

end Sys2Proof.Machine


/-! The bytes fetched past an instruction's width: the decoder does not use them, and the dispatch uses nothing but what the
decoder answers (30_encoding.md R53). -/

namespace Sys2Proof.Machine

/-- A slot that agrees with `⟨ir, a, b⟩` in the bytes inside the instruction's width decodes to the same instruction. -/
theorem decode_congr_of_width {opc : Opcodes} {ir a b a' b' : Byte} {i : Instr} (h : decode opc ⟨ir, a, b⟩ = .ok i)
    (ha : 1 < i.width → a' = a) (hb : 2 < i.width → b' = b) : decode opc ⟨ir, a', b'⟩ = .ok i := by
  cases decode_case opc ir with
  | hlt _ hd | ret _ hd =>
    obtain rfl := Except.ok.inj (h.symm.trans (hd a b))
    exact hd a' b'
  | prn _ hd | push _ hd | pop _ hd | call _ hd | jmp _ hd | jeq _ hd | jne _ hd =>
    obtain rfl := Except.ok.inj (h.symm.trans (hd a b))
    obtain rfl := ha (show 1 < 2 by decide)
    exact hd a' b'
  | ldi _ hd | mul _ hd | add _ hd | cmp _ hd =>
    obtain rfl := Except.ok.inj (h.symm.trans (hd a b))
    obtain rfl := ha (show 1 < 3 by decide)
    obtain rfl := hb (show 2 < 3 by decide)
    exact hd a' b'
  | unsupported _ hd => exact absurd (h.symm.trans (hd a b)) (by simp)

theorem dispatchSlot_of_decode {opc : Opcodes} {w : Slot} {i : Instr} (h : decode opc w = .ok i) (s : State) :
    dispatchSlot opc s w = exec i s := by
  simp only [dispatchSlot, h]

theorem State.raise_onlyStatus (s : State) (c : FaultCause) : OnlyStatus s (s.raise c) := ⟨rfl, rfl, rfl, rfl, rfl, rfl⟩

/-- An ill-formed instruction takes `RegIndexOutOfRange` before its handler runs (30_encoding.md R55). -/
theorem exec_of_not_wellFormed {i : Instr} (hw : i.wellFormed = false) (s : State) :
    exec i s = .next (s.raise .regIndexOutOfRange) := by
  cases i with
  | ret | hlt => exact absurd hw (by decide)
  | mul a b | add a b | cmp a b =>
    exact withRegs_of_high s ((Bool.and_eq_false_iff.mp hw).imp isRegByte_false.mp isRegByte_false.mp) _
  | ldi a _ | prn a | push a | pop a | call a | jmp a | jeq a | jne a =>
    exact withReg_of_high s (isRegByte_false.mp hw) _

/-- Settles O27: the replaced bytes lie past the width, so both slots decode to the one instruction, and each dispatch runs
it. -/
theorem ignoredBytesHaveNoEffect : Obligations.IgnoredBytesHaveNoEffect := by
  intro opc ir a b a' b' i h
  refine ⟨fun hwidth => ?_, fun hwidth => ?_⟩
  · have h' : decode opc ⟨ir, a', b'⟩ = .ok i := decode_congr_of_width h (by omega) (by omega)
    exact ⟨h', fun s => (dispatchSlot_of_decode h' s).trans (dispatchSlot_of_decode h s).symm⟩
  · have h' : decode opc ⟨ir, a, b'⟩ = .ok i := decode_congr_of_width h (fun _ => rfl) (by omega)
    refine ⟨h', fun _ s => (dispatchSlot_of_decode h' s).trans (dispatchSlot_of_decode h s).symm, fun hw s => ?_⟩
    have he := exec_of_not_wellFormed hw s
    have honly := s.raise_onlyStatus .regIndexOutOfRange
    exact ⟨_, _, _, _, (dispatchSlot_of_decode h s).trans he, rfl, honly, (dispatchSlot_of_decode h' s).trans he, rfl, honly⟩

end Sys2Proof.Machine


/-! The dispatch map as a table from opcode bytes to instructions: with distinct bytes each row is what the decoder answers
(40_execute_loop.md R72). -/

namespace Sys2Proof.Machine

/-- The rows of Table E2 with the operand bytes `a` and `b` filled in: each opcode byte with its instruction, in the order of
`Opcodes.toList`. -/
def decodeRows (opc : Opcodes) (a b : Byte) : List (Byte × Instr) :=
  [(opc.ldi, .ldi a b), (opc.prn, .prn a), (opc.push, .push a), (opc.pop, .pop a), (opc.mul, .mul a b), (opc.add, .add a b),
    (opc.cmp, .cmp a b), (opc.call, .call a), (opc.ret, .ret), (opc.jmp, .jmp a), (opc.jeq, .jeq a), (opc.jne, .jne a),
    (opc.hlt, .hlt)]

theorem map_fst_decodeRows (opc : Opcodes) (a b : Byte) : (decodeRows opc a b).map Prod.fst = opc.toList := rfl

/-- An opcode byte decodes to the instruction of one of its rows, any other byte to its refusal; distinctness is not needed. -/
theorem decode_row_cases (opc : Opcodes) (ir a b : Byte) :
    (∃ i, (ir, i) ∈ decodeRows opc a b ∧ decode opc ⟨ir, a, b⟩ = .ok i) ∨
      (ir ∉ opc.toList ∧ decode opc ⟨ir, a, b⟩ = .error (.unsupportedOpcode ir)) := by
  cases decode_case opc ir with
  | unsupported h hd => exact .inr ⟨h, hd a b⟩
  | _ h hd => exact .inl ⟨_, by simp [decodeRows, h], hd a b⟩

theorem mem_toList_of_mem_decodeRows {opc : Opcodes} {ir a b : Byte} {i : Instr} (h : (ir, i) ∈ decodeRows opc a b) :
    ir ∈ opc.toList :=
  map_fst_decodeRows opc a b ▸ List.mem_map_of_mem h

/-- Distinct opcode bytes make every row the decoder's answer: no two rows have the same byte. -/
theorem decode_of_mem_decodeRows {opc : Opcodes} (hopc : opc.Distinct) {ir a b : Byte} {i : Instr}
    (h : (ir, i) ∈ decodeRows opc a b) : decode opc ⟨ir, a, b⟩ = .ok i := by
  obtain ⟨j, hj, hd⟩ | ⟨hir, _⟩ := decode_row_cases opc ir a b
  · have hkeys : ((decodeRows opc a b).map Prod.fst).Nodup := hopc
    have hij : (ir, i) = (ir, j) := List.inj_on_of_nodup_map hkeys h hj rfl
    exact (Prod.mk.inj hij).2 ▸ hd
  · exact absurd (mem_toList_of_mem_decodeRows h) hir

theorem decode_of_not_mem_toList {opc : Opcodes} {ir : Byte} (h : ir ∉ opc.toList) (a b : Byte) :
    decode opc ⟨ir, a, b⟩ = .error (.unsupportedOpcode ir) := by
  obtain ⟨_, hrow, _⟩ | ⟨_, hd⟩ := decode_row_cases opc ir a b
  · exact absurd (mem_toList_of_mem_decodeRows hrow) h
  · exact hd

theorem dispatchSlot_of_refused {opc : Opcodes} {w : Slot} {e : DecodeError} (h : decode opc w = .error e) (s : State) :
    dispatchSlot opc s w = .next (s.raise .unsupportedOpcode) := by
  cases e
  simp only [dispatchSlot, h]

/-- Settles O26: the thirteen rows of the dispatch table, the refusal of every byte outside it, and what a dispatch does with
each answer. -/
theorem dispatchIsTotalMap : Obligations.DispatchIsTotalMap := by
  intro opc hopc ir a b
  have hrows : ∀ p ∈ decodeRows opc a b, ir = p.1 → decode opc ⟨ir, a, b⟩ = .ok p.2 := by
    rintro ⟨_, i⟩ hp rfl
    exact decode_of_mem_decodeRows hopc hp
  simp only [decodeRows, List.forall_mem_cons] at hrows
  obtain ⟨hldi, hprn, hpush, hpop, hmul, hadd, hcmp, hcall, hret, hjmp, hjeq, hjne, hhlt, _⟩ := hrows
  exact ⟨hhlt, hldi, hprn, hpush, hpop, hmul, hadd, hcmp, hcall, hret, hjmp, hjeq, hjne,
    fun h => decode_of_not_mem_toList h a b, fun s _ hd => dispatchSlot_of_decode hd s,
    fun s h => ⟨_, _, dispatchSlot_of_refused (decode_of_not_mem_toList h a b) s, rfl, s.raise_onlyStatus _⟩⟩

end Sys2Proof.Machine


/-! LDI and PRN: what the register write, the output append and the advance of `pc` leave alone, and the fault of an operand
above 7 (41_load_immediate_and_print.md). -/

namespace Sys2Proof.Machine

theorem State.setReg_keepsRegsBut (s : State) (r : RegIdx) (v : Byte) : KeepsRegsBut s (s.setReg r v) r := fun q hq =>
  (State.reg_setReg s r q v).trans (if_neg hq)

/-- An advance by `n` of a state whose `pc` no update has moved yet (10_state.md R16). -/
theorem pcPlus_advance {s t : State} (h : t.pc = s.pc) (n : Nat) : PcPlus s (t.advance (BitVec.ofNat 8 n)) n := by
  rw [PcPlus, ← h]
  exact byte_add_toNat t.pc n

/-- An ill-formed instruction writes nothing but `status` (60_exceptions.md R132). -/
theorem faultsOnIndex_of_not_wellFormed {i : Instr} (hw : i.wellFormed = false) (s : State) : FaultsOnIndex i s :=
  ⟨_, _, exec_of_not_wellFormed hw s, rfl, s.raise_onlyStatus _⟩

theorem exec_ldi_of_index {a : Byte} {r : RegIdx} (ha : a.toNat = r.val) (b : Byte) (s : State) :
    exec (.ldi a b) s = .next ((s.setReg r b).advance 3) :=
  withReg_of_index s ha _

theorem exec_prn_of_index {a : Byte} {r : RegIdx} (ha : a.toNat = r.val) (s : State) :
    exec (.prn a) s = .next ((s.emit (s.reg r)).advance 2) :=
  withReg_of_index s ha _

/-- Settles O4: LDI's row of the dispatch table, the register write followed by the advance, and the operand check. -/
theorem ldiLoadsImmediate : Obligations.LdiLoadsImmediate := by
  intro s a b
  refine ⟨fun opc hopc => ?_, fun r ha => ?_, fun ha => ?_⟩
  · have hrow : (opc.ldi, .ldi a b) ∈ decodeRows opc a b := by simp [decodeRows]
    exact decode_of_mem_decodeRows hopc hrow
  · have hreg : (s.setReg r b).reg r = b := s.reg_setReg_self r b
    have hregs : KeepsRegsBut s (s.setReg r b) r := s.setReg_keepsRegsBut r b
    have hpc : PcPlus s ((s.setReg r b).advance 3) 3 := pcPlus_advance (s.setReg_pc r b) 3
    exact ⟨_, exec_ldi_of_index ha b s, hreg, hregs, hpc, s.read_setReg r b, rfl, rfl, rfl, rfl⟩
  · exact faultsOnIndex_of_not_wellFormed (i := .ldi a b) (isRegByte_false.mpr ha) s

/-- Settles O5: PRN's row of the dispatch table, the append followed by the advance, and the operand check. -/
theorem prnEmitsRegister : Obligations.PrnEmitsRegister := by
  intro s a
  refine ⟨fun opc third hopc => ?_, fun r ha => ?_, fun ha => ?_⟩
  · have hrow : (opc.prn, .prn a) ∈ decodeRows opc a third := by simp [decodeRows]
    exact decode_of_mem_decodeRows hopc hrow
  · have hout : (s.emit (s.reg r)).out = s.out ++ [s.reg r] := s.emit_out (s.reg r)
    have hpc : PcPlus s ((s.emit (s.reg r)).advance 2) 2 := pcPlus_advance (s.emit_pc (s.reg r)) 2
    exact ⟨_, exec_prn_of_index ha s, hout, hpc, s.reg_emit (s.reg r), s.read_emit (s.reg r), rfl, rfl, rfl⟩
  · exact faultsOnIndex_of_not_wellFormed (i := .prn a) (isRegByte_false.mpr ha) s

end Sys2Proof.Machine


/-! POP: the byte at the old `sp` goes to a register, then `sp` and `pc` move (42_stack.md). -/

namespace Sys2Proof.Machine

/-- The byte is read through the pointer that stands before the POP moves it (42_stack.md R86). -/
theorem exec_pop_of_index {a : Byte} {r : RegIdx} (ha : a.toNat = r.val) (s : State) :
    exec (.pop a) s = .next (((s.setReg r (s.read s.sp)).setSp (s.sp + 1)).advance 2) :=
  withReg_of_index s ha _

/-- Settles O7: POP's row of the dispatch table, the register write followed by the moves of `sp` and `pc`, and the operand
check. -/
theorem popLoadsAtSp : Obligations.PopLoadsAtSp := by
  intro s a
  refine ⟨fun opc third hopc => ?_, fun r ha => ?_, fun ha => ?_⟩
  · have hrow : (opc.pop, .pop a) ∈ decodeRows opc a third := by simp [decodeRows]
    exact decode_of_mem_decodeRows hopc hrow
  · have hreg : (s.setReg r (s.read s.sp)).reg r = s.read s.sp := s.reg_setReg_self r _
    have hregs : KeepsRegsBut s (s.setReg r (s.read s.sp)) r := s.setReg_keepsRegsBut r _
    have hsp : (s.sp + 1).toNat = (s.sp.toNat + 1) % 256 := byte_add_toNat s.sp 1
    have hpc : PcPlus s (((s.setReg r (s.read s.sp)).setSp (s.sp + 1)).advance 2) 2 :=
      pcPlus_advance (State.setSp_pc _ _) 2
    have hmem : KeepsMem s (s.setReg r (s.read s.sp)) := s.read_setReg r _
    exact ⟨_, exec_pop_of_index ha s, hreg, hregs, hsp, hpc, hmem, rfl, rfl, rfl⟩
  · exact faultsOnIndex_of_not_wellFormed (i := .pop a) (isRegByte_false.mpr ha) s

end Sys2Proof.Machine


/-! MUL, ADD and CMP, and CMP followed by a conditional jump (43_alu.md). -/

namespace Sys2Proof.Machine

/-! ## What the three instructions do with operands that name registers -/

theorem exec_mul_of_index {a b : Byte} {r q : RegIdx} (ha : a.toNat = r.val) (hb : b.toNat = q.val) (s : State) :
    exec (.mul a b) s = .next ((s.setReg r (s.reg r * s.reg q)).advance 3) :=
  withRegs_of_index s ha hb _

theorem exec_add_of_index {a b : Byte} {r q : RegIdx} (ha : a.toNat = r.val) (hb : b.toNat = q.val) (s : State) :
    exec (.add a b) s = .next ((s.setReg r (s.reg r + s.reg q)).advance 3) :=
  withRegs_of_index s ha hb _

theorem exec_cmp_of_index {a b : Byte} {r q : RegIdx} (ha : a.toNat = r.val) (hb : b.toNat = q.val) (s : State) :
    exec (.cmp a b) s = .next ((s.setFl (compareFlags (s.reg r) (s.reg q))).advance 3) :=
  withRegs_of_index s ha hb _

theorem isRegByte_and_false {a b : Byte} (h : 7 < a.toNat ∨ 7 < b.toNat) : (isRegByte a && isRegByte b) = false :=
  Bool.and_eq_false_iff.mpr (h.imp isRegByte_false.mpr isRegByte_false.mpr)

/-- What MUL and ADD share: an instruction that writes one register and advances by 3 leaves everything else alone. -/
theorem exists_next_of_exec_setReg {i : Instr} {s : State} {r : RegIdx} {v : Byte} {n : Nat}
    (he : exec i s = .next ((s.setReg r v).advance 3)) (hv : v.toNat = n) :
    ∃ t, exec i s = .next t ∧ (t.reg r).toNat = n ∧ KeepsRegsBut s t r ∧ PcPlus s t 3 ∧ KeepsMem s t ∧ t.sp = s.sp ∧
      t.fl = s.fl ∧ t.out = s.out ∧ t.status = s.status := by
  have hreg : ((s.setReg r v).reg r).toNat = n := (congrArg BitVec.toNat (s.reg_setReg_self r v)).trans hv
  have hregs : KeepsRegsBut s (s.setReg r v) r := s.setReg_keepsRegsBut r v
  have hpc : PcPlus s ((s.setReg r v).advance 3) 3 := pcPlus_advance (s.setReg_pc r v) 3
  exact ⟨_, he, hreg, hregs, hpc, s.read_setReg r v, rfl, rfl, rfl, rfl⟩

/-- Settles O8: MUL's row of the dispatch table, the write of the product modulo 256, and the operand check. -/
theorem mulWritesProduct : Obligations.MulWritesProduct := by
  intro s a b
  refine ⟨fun opc hopc => ?_, fun r q ha hb => ?_, fun hab => ?_⟩
  · have hrow : (opc.mul, .mul a b) ∈ decodeRows opc a b := by simp [decodeRows]
    exact decode_of_mem_decodeRows hopc hrow
  · exact exists_next_of_exec_setReg (exec_mul_of_index ha hb s) (BitVec.toNat_mul _ _)
  · exact faultsOnIndex_of_not_wellFormed (i := .mul a b) (isRegByte_and_false hab) s

/-- Settles O9: ADD's row of the dispatch table, the write of the sum modulo 256, and the operand check. -/
theorem addWritesSum : Obligations.AddWritesSum := by
  intro s a b
  refine ⟨fun opc hopc => ?_, fun r q ha hb => ?_, fun hab => ?_⟩
  · have hrow : (opc.add, .add a b) ∈ decodeRows opc a b := by simp [decodeRows]
    exact decode_of_mem_decodeRows hopc hrow
  · exact exists_next_of_exec_setReg (exec_add_of_index ha hb s) (BitVec.toNat_add _ _)
  · exact faultsOnIndex_of_not_wellFormed (i := .add a b) (isRegByte_and_false hab) s

/-! ## The comparison, flag by flag and relation by relation -/

theorem compareFlags_g {va vb : Byte} : (compareFlags va vb).g = true ↔ va.toNat > vb.toNat := by
  rw [compareFlags_eq, decide_eq_true_iff]

theorem compareFlags_l {va vb : Byte} : (compareFlags va vb).l = true ↔ va.toNat < vb.toNat := by
  rw [compareFlags_eq, decide_eq_true_iff]

theorem compareFlags_e {va vb : Byte} : (compareFlags va vb).e = true ↔ va.toNat = vb.toNat := by
  rw [compareFlags_eq, decide_eq_true_iff, BitVec.toNat_inj]

theorem compareFlags_of_gt {va vb : Byte} (h : va.toNat > vb.toNat) : compareFlags va vb = ⟨true, false, false⟩ :=
  if_pos h

theorem compareFlags_of_lt {va vb : Byte} (h : va.toNat < vb.toNat) : compareFlags va vb = ⟨false, true, false⟩ :=
  (if_neg h.not_gt).trans (if_pos h)

theorem compareFlags_of_eq {va vb : Byte} (h : va.toNat = vb.toNat) : compareFlags va vb = ⟨false, false, true⟩ :=
  (if_neg h.not_gt).trans (if_neg h.not_lt)

/-- Settles O10: CMP's row of the dispatch table, the comparison flag by flag, the operand check, and for the other
instructions the first clause of O35. -/
theorem cmpSetsExactlyOneFlag : Obligations.CmpSetsExactlyOneFlag := by
  intro s a b
  refine ⟨fun opc hopc => ?_, fun r q ha hb => ?_, fun hab => ?_, fun i t u hi he => ?_⟩
  · have hrow : (opc.cmp, .cmp a b) ∈ decodeRows opc a b := by simp [decodeRows]
    exact decode_of_mem_decodeRows hopc hrow
  · have hone : (compareFlags (s.reg r) (s.reg q)).OneSet := compareFlags_oneSet _ _
    have hpc : PcPlus s ((s.setFl (compareFlags (s.reg r) (s.reg q))).advance 3) 3 := pcPlus_advance (s.setFl_pc _) 3
    have hregs : KeepsRegs s (s.setFl (compareFlags (s.reg r) (s.reg q))) := s.reg_setFl _
    have hmem : KeepsMem s (s.setFl (compareFlags (s.reg r) (s.reg q))) := s.read_setFl _
    exact ⟨_, exec_cmp_of_index ha hb s, compareFlags_g, compareFlags_l, compareFlags_e, hone, hpc, hregs, hmem, rfl, rfl,
      rfl⟩
  · exact faultsOnIndex_of_not_wellFormed (i := .cmp a b) (isRegByte_and_false hab) s
  · obtain ⟨hkeeps, _⟩ := flagsWrittenByCmpOnly
    exact hkeeps i t u he hi

/-! ## The conditional jumps after a CMP -/

theorem exec_jeq_of_index {a : Byte} {r : RegIdx} (ha : a.toNat = r.val) (s : State) :
    exec (.jeq a) s = .next (jumpIf s.fl.e s r) :=
  withReg_of_index s ha _

theorem exec_jne_of_index {a : Byte} {r : RegIdx} (ha : a.toNat = r.val) (s : State) :
    exec (.jne a) s = .next (jumpIf (!s.fl.e) s r) :=
  withReg_of_index s ha _

theorem jumpIf_pc_of_taken {taken : Bool} (h : taken = true) (s : State) (r : RegIdx) :
    (jumpIf taken s r).pc = s.reg r := by
  subst h
  rfl

theorem jumpIf_pcPlus_of_not_taken {taken : Bool} (h : taken = false) (s : State) (r : RegIdx) :
    PcPlus s (jumpIf taken s r) 2 := by
  subst h
  exact pcPlus_advance rfl 2

/-- Without `E`, JEQ falls through and JNE jumps. -/
theorem jumps_of_not_equal {t : State} (h : t.fl.e = false) (j : RegIdx) :
    PcPlus t (jumpIf t.fl.e t j) 2 ∧ (jumpIf (!t.fl.e) t j).pc = t.reg j :=
  ⟨jumpIf_pcPlus_of_not_taken h t j, jumpIf_pc_of_taken (congrArg (!·) h) t j⟩

/-- With `E`, JEQ jumps and JNE falls through. -/
theorem jumps_of_equal {t : State} (h : t.fl.e = true) (j : RegIdx) :
    (jumpIf t.fl.e t j).pc = t.reg j ∧ PcPlus t (jumpIf (!t.fl.e) t j) 2 :=
  ⟨jumpIf_pc_of_taken h t j, jumpIf_pcPlus_of_not_taken (congrArg (!·) h) t j⟩

/-- Settles O42: each relation fixes the three flags (Table A1), and JEQ and JNE see only whether `E` is among them. -/
theorem cmpThenConditionalJump : Obligations.CmpThenConditionalJump := by
  intro s a b c r q j ha hb hc
  refine ⟨_, _, _, exec_cmp_of_index ha hb s, exec_jeq_of_index hc _, exec_jne_of_index hc _, fun hgt => ?_, fun hlt => ?_,
    fun heq => ?_⟩
  · have hfl := compareFlags_of_gt hgt
    exact ⟨hfl, jumps_of_not_equal (congrArg Flags.e hfl) j⟩
  · have hfl := compareFlags_of_lt hlt
    exact ⟨hfl, jumps_of_not_equal (congrArg Flags.e hfl) j⟩
  · have hfl := compareFlags_of_eq heq
    exact ⟨hfl, jumps_of_equal (congrArg Flags.e hfl) j⟩

end Sys2Proof.Machine


/-! RET, JMP and JEQ: the new `pc`, what a jump leaves alone, and the fault of an operand above 7 (44_control_transfer.md). -/

namespace Sys2Proof.Machine

/-! ## RET -/

/-- The byte at the old `x[7]` becomes `pc`, then `x[7]` moves up by one (44_control_transfer.md R101). -/
theorem exec_ret (s : State) : exec .ret s = .next ((s.setPc (s.read (s.reg 7))).setReg 7 (s.reg 7 + 1)) := rfl

/-- Settles O12: RET's row of the dispatch table, the jump to the loaded byte and the increment of `x[7]`. -/
theorem retPopsPc : Obligations.RetPopsPc := by
  intro s
  refine ⟨fun opc second third hopc => ?_, ?_⟩
  · have hrow : (opc.ret, .ret) ∈ decodeRows opc second third := by simp [decodeRows]
    exact decode_of_mem_decodeRows hopc hrow
  · have hptr : ((s.setReg 7 (s.reg 7 + 1)).reg 7).toNat = ((s.reg 7).toNat + 1) % 256 :=
      (congrArg BitVec.toNat (s.reg_setReg_self 7 _)).trans (byte_add_toNat (s.reg 7) 1)
    have hregs : KeepsRegsBut s (s.setReg 7 (s.reg 7 + 1)) 7 := s.setReg_keepsRegsBut 7 _
    have hmem : KeepsMem s (s.setReg 7 (s.reg 7 + 1)) := s.read_setReg 7 _
    exact ⟨_, exec_ret s, s.setPc_pc (s.read (s.reg 7)), hptr, hregs, hmem, rfl, rfl, rfl, rfl⟩

/-! ## The jumps -/

/-- A state that differs in `pc` only keeps everything a jump must leave alone. -/
theorem frame_of_eq_setPc {s t : State} {target : Byte} (ht : t = s.setPc target) :
    KeepsRegs s t ∧ KeepsMem s t ∧ t.sp = s.sp ∧ t.fl = s.fl ∧ t.out = s.out ∧ t.status = s.status := by
  subst ht
  exact ⟨s.reg_setPc target, s.read_setPc target, s.setPc_sp target, s.setPc_fl target, s.setPc_out target,
    s.setPc_status target⟩

/-- Taken or not, a conditional jump writes `pc` only. -/
theorem jumpIf_eq_setPc (taken : Bool) (s : State) (r : RegIdx) :
    jumpIf taken s r = s.setPc (if taken then s.reg r else s.pc + 2) := by
  cases taken <;> rfl

theorem exec_jmp_of_index {a : Byte} {r : RegIdx} (ha : a.toNat = r.val) (s : State) :
    exec (.jmp a) s = .next (s.setPc (s.reg r)) :=
  withReg_of_index s ha _

/-- Settles O13: JMP's row of the dispatch table, the write of `pc` alone, and the operand check. -/
theorem jmpJumpsToRegister : Obligations.JmpJumpsToRegister := by
  intro s a
  refine ⟨fun opc third hopc => ?_, fun r ha => ?_, fun ha => ?_⟩
  · have hrow : (opc.jmp, .jmp a) ∈ decodeRows opc a third := by simp [decodeRows]
    exact decode_of_mem_decodeRows hopc hrow
  · exact ⟨_, exec_jmp_of_index ha s, s.setPc_pc (s.reg r), frame_of_eq_setPc rfl⟩
  · exact faultsOnIndex_of_not_wellFormed (i := .jmp a) (isRegByte_false.mpr ha) s

/-- Settles O14: JEQ's row of the dispatch table, `pc` by the flag `E` and nothing else written, and the operand check, which
does not look at the flag. -/
theorem jeqJumpsOnEqual : Obligations.JeqJumpsOnEqual := by
  intro s a
  refine ⟨fun opc third hopc => ?_, fun r ha => ?_, fun ha => ?_⟩
  · have hrow : (opc.jeq, .jeq a) ∈ decodeRows opc a third := by simp [decodeRows]
    exact decode_of_mem_decodeRows hopc hrow
  · have htaken (hE : s.fl.e = true) : (jumpIf s.fl.e s r).pc = s.reg r := jumpIf_pc_of_taken hE s r
    have hnot (hE : s.fl.e = false) : PcPlus s (jumpIf s.fl.e s r) 2 := jumpIf_pcPlus_of_not_taken hE s r
    exact ⟨_, exec_jeq_of_index ha s, htaken, hnot, frame_of_eq_setPc (jumpIf_eq_setPc s.fl.e s r)⟩
  · exact faultsOnIndex_of_not_wellFormed (i := .jeq a) (isRegByte_false.mpr ha) s

end Sys2Proof.Machine


/-! Reset and launch: what a load at address 0 leaves in each cell, and that it writes nothing but memory
(70_reset_and_hazards.md R148). -/

namespace Sys2Proof.Machine

/-- A sequence of writes leaves every cell below its first address and from its end upward alone. -/
theorem Memory.read_writeAll_outside (bytes : List Byte) : ∀ (m : Memory) {a b : Nat}, b < a ∨ a + bytes.length ≤ b →
    Memory.read (Memory.writeAll m a bytes) b = Memory.read m b := by
  induction bytes with
  | nil => exact fun _ _ _ _ => rfl
  | cons v rest ih =>
    intro m a b h
    rw [List.length_cons] at h
    have hne : b ≠ a := by omega
    calc Memory.read (Memory.writeAll (Memory.write m a v) (a + 1) rest) b
      _ = Memory.read (Memory.write m a v) b := ih _ (by omega)
      _ = Memory.read m b := (Memory.read_write m a b v).trans (if_neg hne)

/-- After a sequence of writes the cell `i` above the first address holds byte `i` (20_memory.md R34). -/
theorem Memory.read_writeAll_add (bytes : List Byte) : ∀ (m : Memory) (a i : Nat) (h : i < bytes.length),
    Memory.read (Memory.writeAll m a bytes) (a + i) = bytes[i] := by
  induction bytes with
  | nil => exact fun _ _ i h => absurd h (Nat.not_lt_zero i)
  | cons v rest ih =>
    intro m a i h
    cases i with
    | zero =>
      calc Memory.read (Memory.writeAll (Memory.write m a v) (a + 1) rest) a
        _ = Memory.read (Memory.write m a v) a := Memory.read_writeAll_outside rest _ (.inl a.lt_succ_self)
        _ = v := (Memory.read_write m a a v).trans (if_pos rfl)
    | succ j =>
      have hj : j < rest.length := Nat.lt_of_succ_lt_succ h
      have hadd : a + (j + 1) = a + 1 + j := by omega
      exact (congrArg _ hadd).trans (ih (Memory.write m a v) (a + 1) j hj)

/-- An image that fits is launched: the reset state with the bytes written from address 0. -/
theorem launch_of_length_le {bytes : List Byte} (h : bytes.length ≤ 256) :
    launch bytes = some { State.reset with mem := Memory.writeAll State.reset.mem 0 bytes } :=
  if_pos ⟨rfl, h⟩

/-- Settles O2: memory by the two reads of `Memory.writeAll`, inside the image and above it, where the reset memory reads
`0x00`; a load writes nothing else. -/
theorem launchPlacesImage : Obligations.LaunchPlacesImage := by
  intro bytes hlen
  refine ⟨_, launch_of_length_le hlen, fun i hi => ?_, fun a ha => ?_, rfl, rfl, rfl, rfl, rfl, rfl⟩
  · have haddr : (BitVec.ofNat 8 i).toNat = 0 + i := by
      rw [BitVec.toNat_ofNat, Nat.mod_eq_of_lt (by omega), Nat.zero_add]
    exact (congrArg _ haddr).trans (Memory.read_writeAll_add bytes _ 0 i hi)
  · exact Memory.read_writeAll_outside bytes State.reset.mem (.inr (by omega))

end Sys2Proof.Machine


/-! The decoder and the encoder undo each other (30_encoding.md R57, Table E2). -/

namespace Sys2Proof.Machine

/-- The encoder's bytes, whatever follows them, fill the slot of the instruction's own row. -/
theorem encode_slot_mem_decodeRows (opc : Opcodes) (i : Instr) (rest : List Byte) :
    ((slotOfBytes (encode opc i ++ rest)).ir, i) ∈
      decodeRows opc (slotOfBytes (encode opc i ++ rest)).a (slotOfBytes (encode opc i ++ rest)).b := by
  cases i <;> simp [encode, slotOfBytes, decodeRows]

/-- Settles O28: with distinct opcode bytes the row that the encoder's bytes fill is the one the decoder answers. -/
theorem decodeOfEncode : Obligations.DecodeOfEncode := fun opc hopc i rest =>
  decode_of_mem_decodeRows hopc (encode_slot_mem_decodeRows opc i rest)

/-- Each row's instruction is encoded by the row's opcode byte and as many operand bytes as its width asks for. -/
theorem encode_of_mem_decodeRows {opc : Opcodes} {ir a b : Byte} {i : Instr} (h : (ir, i) ∈ decodeRows opc a b) :
    encode opc i = (slotBytes ⟨ir, a, b⟩).take i.width := by
  have hrows : ∀ p ∈ decodeRows opc a b, encode opc p.2 = (slotBytes ⟨p.1, a, b⟩).take p.2.width := by
    simp [decodeRows, encode, slotBytes, Instr.width]
  exact hrows _ h

/-- Settles O29: what the decoder answers stands in the slot's row. -/
theorem encodeOfDecode : Obligations.EncodeOfDecode := by
  intro opc w i h
  obtain ⟨j, hrow, hj⟩ | ⟨_, hd⟩ := decode_row_cases opc w.ir w.a w.b
  · obtain rfl := Except.ok.inj (h.symm.trans hj)
    exact encode_of_mem_decodeRows hrow
  · exact absurd (h.symm.trans hd) (by simp)

/-- Settles O30: the decoder with the default opcode bytes, evaluated on each word. -/
theorem opcodeWordsDecode : Obligations.OpcodeWordsDecode := by
  unfold Obligations.OpcodeWordsDecode
  decide

end Sys2Proof.Machine


/-! What an instruction and a step can do: the outcomes of an instruction by the status they leave, and those of a step
(60_exceptions.md section 3). -/

namespace Sys2Proof.Machine

/-! ## One instruction -/

/-- Every instruction answers a next state; a fault of the engine is one too. -/
theorem exec_next (i : Instr) (s : State) : ∃ t, exec i s = .next t := by
  cases exec_case i s <;> exact ⟨_, ‹_›⟩

theorem jumpIf_status (taken : Bool) (s : State) (r : RegIdx) : (jumpIf taken s r).status = s.status := by
  rw [jumpIf_eq_setPc, State.setPc_status]

/-- A well-formed instruction other than HLT leaves `status` alone. -/
theorem status_of_exec {i : Instr} {s t : State} (h : exec i s = .next t) (hw : i.wellFormed = true) (hi : i ≠ .hlt) :
    t.status = s.status := by
  have ht {u : State} (he : exec i s = .next u) : t = u := Host.Outcome.next.inj (h.symm.trans he)
  cases exec_case i s with
  | raised hbad _ => exact absurd (hw.symm.trans hbad) (by decide)
  | hlt hhlt _ => exact absurd hhlt hi
  | jeq a r _ _ he | jne a r _ _ he => rw [ht he, jumpIf_status]
  | ldi _ _ _ _ _ he | prn _ _ _ _ he | push _ _ _ _ he | pop _ _ _ _ he | mul _ _ _ _ _ _ _ he
  | add _ _ _ _ _ _ _ he | cmp _ _ _ _ _ _ _ he | call _ _ _ _ he | ret _ he | jmp _ _ _ _ he =>
    rw [ht he]; rfl

theorem exec_hlt (s : State) : exec .hlt s = .next (s.setStatus .halted) := rfl

theorem State.setStatus_onlyStatus (s : State) (v : Status) : OnlyStatus s (s.setStatus v) :=
  ⟨rfl, rfl, rfl, rfl, rfl, rfl⟩

/-- Settles O16: HLT's row of the dispatch table and the one write of `status`. -/
theorem hltHalts : Obligations.HltHalts := by
  intro s
  refine ⟨fun opc second third hopc => ?_, _, exec_hlt s, s.setStatus_status .halted, s.setStatus_onlyStatus .halted⟩
  have hrow : (opc.hlt, .hlt) ∈ decodeRows opc second third := by simp [decodeRows]
  exact decode_of_mem_decodeRows hopc hrow

/-- The status that taking a fault leaves: its cause and the record of the bytes at `pc` (60_exceptions.md R133). -/
theorem State.raise_status (s : State) (c : FaultCause) : (s.raise c).status = faultStatus s c := rfl

/-- Settles O24: an ill-formed instruction takes the fault, which writes `status` only. -/
theorem regIndexAboveSevenFaults : Obligations.RegIndexAboveSevenFaults := fun _ s hw =>
  ⟨_, exec_of_not_wellFormed hw s, s.raise_status _, s.raise_onlyStatus _⟩

/-! ## The fetch and the step -/

/-- The fetched slot holds the bytes at `pc`, `pc + 1` and `pc + 2` (40_execute_loop.md R70). -/
theorem State.fetch_eq (s : State) : s.fetch = ⟨s.read s.pc, s.read (s.pc + 1), s.read (s.pc + 2)⟩ := rfl

/-- Settles O18: an address given by its number modulo 256 is the byte sum. -/
theorem fetchReadsThreeBytesModulo256 : Obligations.FetchReadsThreeBytesModulo256 := by
  intro s p q hp hq
  have hp : p = s.pc + 1 := BitVec.eq_of_toNat_eq (hp.trans (byte_add_toNat s.pc 1).symm)
  have hq : q = s.pc + 2 := BitVec.eq_of_toNat_eq (hq.trans (byte_add_toNat s.pc 2).symm)
  rw [hp, hq, State.fetch_eq]

theorem stepWith_of_decode {opc : Opcodes} {s : State} {i : Instr} (h : s.status = .running)
    (hd : decode opc s.fetch = .ok i) : stepWith opc s = exec i s :=
  (stepWith_running opc h).trans (dispatchSlot_of_decode hd s)

theorem stepWith_of_refused {opc : Opcodes} {s : State} (h : s.status = .running) (hir : s.read s.pc ∉ opc.toList) :
    stepWith opc s = .next (s.raise .unsupportedOpcode) :=
  (stepWith_running opc h).trans (dispatchSlot_of_refused (decode_of_not_mem_toList hir _ _) s)

/-- Settles O17: a Running step dispatches the fetched slot, and a slot that decodes runs its instruction. -/
theorem stepRunsDecodedInstr : Obligations.StepRunsDecodedInstr :=
  ⟨fun _ _ _ h hd => stepWith_of_decode h hd, fun _ _ h hd => stepWith_of_decode h hd⟩

theorem stepWith_of_halted {s : State} (h : s.status = .halted) (opc : Opcodes) :
    stepWith opc s = .fault .haltedHasNoStep := by
  simp only [stepWith, h]

theorem stepWith_of_faulted {s : State} {c : FaultCause} {info : FaultInfo} (h : s.status = .faulted c info)
    (opc : Opcodes) : stepWith opc s = .fault .faultedHasNoStep := by
  simp only [stepWith, h]

/-- Settles O21: the step looks at `status` first. -/
theorem endedStateHasNoStep : Obligations.EndedStateHasNoStep := fun opc _ =>
  ⟨fun h => stepWith_of_halted h opc, fun _ _ h => stepWith_of_faulted h opc⟩

/-- What a step from `s` that answers `t` did: run a well-formed instruction, halt, or take one of two faults. -/
inductive StepCase (opc : Opcodes) (s t : State) : Prop where
  | ran (i : Instr) (hd : decode opc s.fetch = .ok i) (hw : i.wellFormed = true) (he : exec i s = .next t)
      (hst : t.status = .running)
  | halted (hd : decode opc s.fetch = .ok .hlt) (ht : t = s.setStatus .halted)
  | regIndex (i : Instr) (hd : decode opc s.fetch = .ok i) (hw : i.wellFormed = false)
      (ht : t = s.raise .regIndexOutOfRange)
  | unsupported (hir : s.read s.pc ∉ opc.toList) (ht : t = s.raise .unsupportedOpcode)

/-- Everything a step can do. -/
theorem step_case {opc : Opcodes} {s t : State} (h : stepWith opc s = .next t) : StepCase opc s t := by
  have hrun : s.status = .running := running_of_stepWith h
  rw [stepWith_running opc hrun] at h
  obtain ⟨i, hd, he⟩ | ⟨hir, he⟩ := dispatchSlot_cases opc s s.fetch
  · rw [he] at h
    cases hw : i.wellFormed with
    | false => exact .regIndex i hd hw (Host.Outcome.next.inj (h.symm.trans (exec_of_not_wellFormed hw s)))
    | true =>
      by_cases hi : i = .hlt
      · subst hi
        exact .halted hd (Host.Outcome.next.inj (h.symm.trans (exec_hlt s)))
      · exact .ran i hd hw h ((status_of_exec h hw hi).trans hrun)
  · exact .unsupported hir (Host.Outcome.next.inj (h.symm.trans he))

/-- Settles O20: the dispatch runs an instruction, which answers a next state, or takes a fault, which is one. -/
theorem runningStateAlwaysSteps : Obligations.RunningStateAlwaysSteps := by
  intro opc s h
  rw [stepWith_running opc h]
  obtain ⟨i, _, he⟩ | ⟨_, he⟩ := dispatchSlot_cases opc s s.fetch
  · exact he ▸ exec_next i s
  · exact ⟨_, he⟩

theorem decode_of_ir_eq_hlt {opc : Opcodes} {w : Slot} (h : w.ir = opc.hlt) : decode opc w = .ok .hlt := if_pos h

/-- The HLT instruction is decoded from its own byte only. -/
theorem ir_eq_hlt_of_decode {opc : Opcodes} {w : Slot} (h : decode opc w = .ok .hlt) : w.ir = opc.hlt := by
  have henc : [opc.hlt] = [w.ir] := encodeOfDecode opc w .hlt h
  exact (List.cons.inj henc).1.symm

/-- Settles O22: one lemma for each of the four tests' outcomes, in their order. -/
theorem stepFollowsTestOrder : Obligations.StepFollowsTestOrder := by
  intro opc s h
  refine ⟨fun hir => ?_, fun hir => ?_, fun i hd hw => ?_, fun i hd hw hir => ?_⟩
  · exact ⟨_, (stepWith_of_decode h (decode_of_ir_eq_hlt hir)).trans (exec_hlt s), rfl⟩
  · exact ⟨_, stepWith_of_refused h hir, s.raise_status _⟩
  · exact ⟨_, (stepWith_of_decode h hd).trans (exec_of_not_wellFormed hw s), s.raise_status _⟩
  · obtain ⟨t, he⟩ := exec_next i s
    have hi : i ≠ .hlt := fun hi => hir (ir_eq_hlt_of_decode (hi ▸ hd))
    exact ⟨t, (stepWith_of_decode h hd).trans he, (status_of_exec he hw hi).trans h⟩

/-- Settles O23: the refused byte's fault, and then the step of a Faulted state. -/
theorem unsupportedOpcodeFaults : Obligations.UnsupportedOpcodeFaults := fun opc s h hir =>
  ⟨_, stepWith_of_refused h hir, s.raise_status _, stepWith_of_faulted (s.raise_status _) opc⟩

/-- Settles O25: of the four things a step can do, the one that writes more leaves Running. -/
theorem stoppingStepChangesOnlyStatus : Obligations.StoppingStepChangesOnlyStatus := by
  intro opc s t h hst
  cases step_case h with
  | ran _ _ _ _ hrun => exact absurd hrun hst
  | halted _ ht => exact ht ▸ s.setStatus_onlyStatus _
  | regIndex _ _ _ ht | unsupported _ ht => exact ht ▸ s.raise_onlyStatus _

/-- Settles O41: the handler takes the fault for any other operation name; of a step's outcomes, two are faults, of other
causes. -/
theorem unsupportedAluOpIsUnreachable : Obligations.UnsupportedAluOpIsUnreachable := by
  refine ⟨fun name a b s => ?_, fun opc s t info h hst => ?_⟩
  · have hraise : aluHandler (.other name) s a b = s.raise .unsupportedAluOp := rfl
    rw [hraise]
    exact ⟨s.raise_status _, s.raise_onlyStatus _⟩
  · cases step_case h with
    | ran _ _ _ _ hrun => simp [hrun] at hst
    | halted _ ht => simp [ht] at hst
    | regIndex _ _ _ ht | unsupported _ ht => simp [ht, State.raise_status, faultStatus] at hst

end Sys2Proof.Machine


/-! Memory: canonical lists are determined by what they read as, and an instruction stores at most one byte, at the address
its meaning computes (20_memory.md Table M1). -/

namespace Sys2Proof.Machine

/-! ## Canonical memories -/

/-- In a canonical memory the listed cells are those that read as something else than the reset value. -/
theorem Memory.mem_iff_read {m : Memory} (h : m.wf) (a : Nat) (v : Byte) :
    (a, v) ∈ m ↔ Memory.read m a = v ∧ v ≠ Config.memReset := by
  induction m with
  | nil =>
    refine ⟨fun hc => by simp at hc, fun ⟨hread, hv⟩ => absurd hread.symm hv⟩
  | cons c rest ih =>
    obtain ⟨k, w⟩ := c
    obtain ⟨hsorted, hcells⟩ := h
    obtain ⟨hk, hrest⟩ := List.pairwise_cons.mp hsorted
    obtain ⟨⟨_, hw⟩, hcells⟩ := List.forall_mem_cons.mp hcells
    by_cases hka : k = a
    · subst hka
      have habsent : (k, v) ∉ rest := fun hc => lt_irrefl k (hk _ hc)
      have hread : Memory.read ((k, w) :: rest) k = w := if_pos rfl
      rw [hread, List.mem_cons, Prod.mk.injEq]
      exact ⟨fun hc => hc.elim (fun ⟨_, hv⟩ => ⟨hv.symm, hv ▸ hw⟩) fun hc => absurd hc habsent,
        fun ⟨hv, _⟩ => .inl ⟨rfl, hv.symm⟩⟩
    · have hread : Memory.read ((k, w) :: rest) a = Memory.read rest a := if_neg hka
      rw [hread, List.mem_cons, Prod.mk.injEq, ← ih ⟨hrest, hcells⟩]
      exact ⟨fun hc => hc.resolve_left fun ⟨ha, _⟩ => hka ha.symm, .inr⟩

/-- No cell past the address space is listed in a canonical memory. -/
theorem Memory.read_of_memSize_le {m : Memory} (h : m.wf) {a : Nat} (ha : Config.memSize ≤ a) :
    Memory.read m a = Config.memReset := by
  obtain ⟨_, hcells⟩ := h
  exact Memory.read_of_absent m a fun c hc => ((hcells c hc).1.trans_le ha).ne

/-- Canonical memories that read alike list the same cells in the same order. -/
theorem Memory.eq_of_read_eq {m m' : Memory} (h : m.wf) (h' : m'.wf) (hread : ∀ a, Memory.read m a = Memory.read m' a) :
    m = m' := by
  have hasymm : Std.Asymm fun c d : Host.Cell => c.1 < d.1 := ⟨fun _ _ => lt_asymm⟩
  refine List.Pairwise.eq_of_mem_iff h.1 h'.1 fun c => ?_
  obtain ⟨a, v⟩ := c
  rw [Memory.mem_iff_read h, Memory.mem_iff_read h', hread]

/-- Settles O32: the engine's addresses read alike by hypothesis, those past the address space because neither memory lists
them. -/
theorem equalReadsEqualMemories : Obligations.EqualReadsEqualMemories := by
  intro s t hs ht hkeeps
  refine Memory.eq_of_read_eq hs ht fun a => ?_
  by_cases ha : a < Config.memSize
  · have haddr : (BitVec.ofNat 8 a).toNat = a := Nat.mod_eq_of_lt ha
    have hread : Memory.read t.mem (BitVec.ofNat 8 a).toNat = Memory.read s.mem (BitVec.ofNat 8 a).toNat :=
      hkeeps (BitVec.ofNat 8 a)
    rw [haddr] at hread
    exact hread.symm
  · rw [Memory.read_of_memSize_le hs (by omega), Memory.read_of_memSize_le ht (by omega)]

/-! ## PUSH and CALL, the two that store -/

theorem exec_push_of_index {a : Byte} {r : RegIdx} (ha : a.toNat = r.val) (s : State) :
    exec (.push a) s = .next (((s.setSp (s.sp - 1)).write (s.sp - 1) (s.reg r)).advance 2) :=
  withReg_of_index s ha _

theorem exec_call_of_index {a : Byte} {r : RegIdx} (ha : a.toNat = r.val) (s : State) :
    exec (.call a) s = .next ((callPush s).setPc ((callPush s).reg r)) :=
  withReg_of_index s ha _

/-- `v -8 1` as the spec writes it, modulo 256 (00_scope.md R8). -/
theorem byte_sub_one_toNat (v : Byte) : (v - 1).toNat = (v.toNat + 255) % 256 := by
  rw [BitVec.toNat_sub, Nat.add_comm]
  rfl

/-- Settles O6: PUSH's row of the dispatch table, the decrement and the store at the new `sp`, and the operand check. -/
theorem pushStoresBelowSp : Obligations.PushStoresBelowSp := by
  intro s a
  refine ⟨fun opc third hopc => ?_, fun r ha => ?_, fun ha => ?_⟩
  · have hrow : (opc.push, .push a) ∈ decodeRows opc a third := by simp [decodeRows]
    exact decode_of_mem_decodeRows hopc hrow
  · have hcell : ((s.setSp (s.sp - 1)).write (s.sp - 1) (s.reg r)).read (s.sp - 1) = s.reg r :=
      State.read_write_self _ _ _
    have hmem : KeepsMemBut s ((s.setSp (s.sp - 1)).write (s.sp - 1) (s.reg r)) (s.sp - 1) :=
      (s.setSp (s.sp - 1)).write_keepsMemBut _ _
    have hpc : PcPlus s (((s.setSp (s.sp - 1)).write (s.sp - 1) (s.reg r)).advance 2) 2 := pcPlus_advance rfl 2
    exact ⟨_, exec_push_of_index ha s, rfl, byte_sub_one_toNat s.sp, hcell, hmem, hpc, fun _ => rfl, rfl, rfl, rfl⟩
  · exact faultsOnIndex_of_not_wellFormed (i := .push a) (isRegByte_false.mpr ha) s

/-- CALL's target: the register's value after the decrement of `x[7]` (44_control_transfer.md R100). -/
theorem callPush_reg (s : State) (q : RegIdx) : (callPush s).reg q = if q = 7 then s.reg 7 - 1 else s.reg q := by
  rw [callPush_eq, State.reg_write, State.reg_setReg]

theorem callPush_read (s : State) (b : Byte) :
    (callPush s).read b = if b = s.reg 7 - 1 then s.pc + 2 else s.read b := by
  rw [callPush_eq, State.read_write, State.read_setReg]

/-- Settles O11: CALL's row of the dispatch table, the decrement of `x[7]`, the store of the return address at its new value,
the jump, and the operand check. -/
theorem callPushesReturnAddress : Obligations.CallPushesReturnAddress := by
  intro s a
  refine ⟨fun opc third hopc => ?_, fun r ha => ?_, fun ha => ?_⟩
  · have hrow : (opc.call, .call a) ∈ decodeRows opc a third := by simp [decodeRows]
    exact decode_of_mem_decodeRows hopc hrow
  · have hptr : (callPush s).reg 7 = s.reg 7 - 1 := callPush_reg s 7
    have hptr_nat : ((callPush s).reg 7).toNat = ((s.reg 7).toNat + 255) % 256 := hptr ▸ byte_sub_one_toNat (s.reg 7)
    have hregs : KeepsRegsBut s (callPush s) 7 := fun q hq => (callPush_reg s q).trans (if_neg hq)
    have hcell : ((callPush s).read (s.reg 7 - 1)).toNat = (s.pc.toNat + 2) % 256 :=
      (congrArg BitVec.toNat ((callPush_read s _).trans (if_pos rfl))).trans (byte_add_toNat s.pc 2)
    have hmem : KeepsMemBut s (callPush s) (s.reg 7 - 1) := fun b hb => (callPush_read s b).trans (if_neg hb)
    exact ⟨_, exec_call_of_index ha s, hptr, hptr_nat, hregs, hcell, hmem, callPush_reg s r, rfl, rfl, rfl, rfl⟩
  · exact faultsOnIndex_of_not_wellFormed (i := .call a) (isRegByte_false.mpr ha) s

/-! ## Every instruction -/

/-- An instruction leaves memory alone or stores one byte at the address its meaning computes. -/
theorem mem_cases_of_exec {i : Instr} {s t : State} (h : exec i s = .next t) :
    t.mem = s.mem ∨ ∃ a v, i.storeAddr s = some a ∧ t.mem = (s.write a v).mem := by
  have ht {u : State} (he : exec i s = .next u) : t = u := Host.Outcome.next.inj (h.symm.trans he)
  cases exec_case i s with
  | push a r hi _ he => exact .inr ⟨s.sp - 1, s.reg r, by rw [hi]; rfl, by rw [ht he]; rfl⟩
  | call a r hi _ he => exact .inr ⟨s.reg 7 - 1, s.pc + 2, by rw [hi]; rfl, by rw [ht he]; rfl⟩
  | jeq a r _ _ he | jne a r _ _ he => exact .inl (by rw [ht he, jumpIf_eq_setPc, State.setPc_mem])
  | raised _ he | ldi _ _ _ _ _ he | prn _ _ _ _ he | pop _ _ _ _ he | mul _ _ _ _ _ _ _ he
  | add _ _ _ _ _ _ _ he | cmp _ _ _ _ _ _ _ he | ret _ he | jmp _ _ _ _ he | hlt _ he =>
    exact .inl (by rw [ht he]; rfl)

/-- A byte that is not at the instruction's store address reads as before. -/
theorem read_of_exec {i : Instr} {s t : State} (h : exec i s = .next t) {b : Byte} (hb : i.storeAddr s ≠ some b) :
    t.read b = s.read b := by
  obtain hmem | ⟨a, v, ha, hmem⟩ := mem_cases_of_exec h
  · exact congrArg (Memory.read · b.toNat) hmem
  · have hne : b ≠ a := fun e => hb (e ▸ ha)
    exact (congrArg (Memory.read · b.toNat) hmem).trans (s.write_keepsMemBut a v b hne)

theorem mem_wf_of_exec {i : Instr} {s t : State} (h : exec i s = .next t) (hwf : s.mem.wf) : t.mem.wf := by
  obtain hmem | ⟨a, v, _, hmem⟩ := mem_cases_of_exec h
  · exact hmem ▸ hwf
  · exact hmem ▸ State.write_wf a v hwf

end Sys2Proof.Machine


/-! The machine's invariant, at reset and through every step (10_state.md section 4, 60_exceptions.md). -/

namespace Sys2Proof.Machine

theorem fl_legal_of_exec {i : Instr} {s t : State} (h : exec i s = .next t) (hs : s.fl.Legal) : t.fl.Legal := by
  obtain ⟨_, _, va, vb, _, hfl⟩ | ⟨hfl, _⟩ := fl_cases_of_exec h
  · exact hfl ▸ .inr (compareFlags_oneSet va vb)
  · exact hfl ▸ hs

/-- Writing `status` alone keeps the invariant's other two parts. -/
theorem inv_of_onlyStatus {opc : Opcodes} {s t : State} (h : OnlyStatus s t) (hs : s.Inv opc)
    (ht : t.StatusTruthful opc) : t.Inv opc := by
  obtain ⟨hmem, _, _, _, hfl, _⟩ := h
  obtain ⟨hwf, hlegal, _⟩ := hs
  exact ⟨hmem ▸ hwf, hfl ▸ hlegal, ht⟩

theorem statusTruthful_of_running {opc : Opcodes} {s : State} (h : s.status = .running) : s.StatusTruthful opc := by
  simp only [State.StatusTruthful, h]

theorem setStatus_halted_statusTruthful {opc : Opcodes} {s : State} (h : s.read s.pc = opc.hlt) :
    (s.setStatus .halted).StatusTruthful opc := h

theorem raise_regIndex_statusTruthful {opc : Opcodes} {s : State} {i : Instr} (hd : decode opc s.fetch = .ok i)
    (hw : i.wellFormed = false) : (s.raise .regIndexOutOfRange).StatusTruthful opc :=
  ⟨rfl, i, hd, hw⟩

theorem raise_unsupported_statusTruthful {opc : Opcodes} {s : State} (h : s.read s.pc ∉ opc.toList) :
    (s.raise .unsupportedOpcode).StatusTruthful opc :=
  ⟨rfl, h⟩

/-- Settles O46: reset lists no cell, sets no flag, and is Running. -/
theorem resetMeetsInvariant : Obligations.ResetMeetsInvariant := fun _ =>
  ⟨State.reset_mem_wf, .inl rfl, statusTruthful_of_running rfl⟩

theorem inv_of_stepWith {opc : Opcodes} {s t : State} (hs : s.Inv opc) (h : stepWith opc s = .next t) : t.Inv opc := by
  cases step_case h with
  | ran i _ _ he hst =>
    obtain ⟨hwf, hlegal, _⟩ := hs
    exact ⟨mem_wf_of_exec he hwf, fl_legal_of_exec he hlegal, statusTruthful_of_running hst⟩
  | halted hd ht =>
    subst ht
    exact inv_of_onlyStatus (s.setStatus_onlyStatus _) hs (setStatus_halted_statusTruthful (ir_eq_hlt_of_decode hd))
  | regIndex i hd hw ht =>
    subst ht
    exact inv_of_onlyStatus (s.raise_onlyStatus _) hs (raise_regIndex_statusTruthful hd hw)
  | unsupported hir ht =>
    subst ht
    exact inv_of_onlyStatus (s.raise_onlyStatus _) hs (raise_unsupported_statusTruthful hir)

/-- Settles O47: each outcome of a step keeps the three parts of the invariant; the machine's own step is the engine's with
the default opcode bytes. -/
theorem stepKeepsMachineInvariant : Obligations.StepKeepsMachineInvariant :=
  ⟨fun _ _ _ => inv_of_stepWith, fun _ _ => inv_of_stepWith⟩

end Sys2Proof.Machine


/-! The output and the end of a run: what one instruction, one step and a run can append, and that no run passes a state
that is not Running (10_state.md section 6). -/

namespace Sys2Proof.Machine

/-! ## The output -/

/-- PRN appends one register's value or faults; every other instruction leaves the output alone. -/
theorem out_cases_of_exec {i : Instr} {s t : State} (h : exec i s = .next t) :
    t.out = s.out ∨ (∃ a, i = .prn a) ∧ ∃ r, t.out = s.out ++ [s.reg r] := by
  have ht {u : State} (he : exec i s = .next u) : t = u := Host.Outcome.next.inj (h.symm.trans he)
  cases exec_case i s with
  | prn a r hi _ he => exact .inr ⟨⟨a, hi⟩, r, by rw [ht he]; rfl⟩
  | jeq a r _ _ he | jne a r _ _ he => exact .inl (by rw [ht he, jumpIf_eq_setPc, State.setPc_out])
  | raised _ he | ldi _ _ _ _ _ he | push _ _ _ _ he | pop _ _ _ _ he | mul _ _ _ _ _ _ _ he
  | add _ _ _ _ _ _ _ he | cmp _ _ _ _ _ _ _ he | call _ _ _ _ he | ret _ he | jmp _ _ _ _ he | hlt _ he =>
    exact .inl (by rw [ht he]; rfl)

/-- Settles O38: only the outcome of PRN appends. -/
theorem outputByPrnOnly : Obligations.OutputByPrnOnly := by
  intro i s t h
  obtain hout | ⟨⟨a, hi⟩, hout⟩ := out_cases_of_exec h
  · exact ⟨fun _ => hout, .inl hout⟩
  · exact ⟨fun hne => absurd hi (hne a), .inr hout⟩

/-- One step appends at most one value. -/
theorem out_of_stepWith {opc : Opcodes} {s t : State} (h : stepWith opc s = .next t) :
    ∃ l : List Byte, t.out = s.out ++ l ∧ l.length ≤ 1 := by
  cases step_case h with
  | ran i _ _ he _ =>
    obtain hout | ⟨_, r, hout⟩ := out_cases_of_exec he
    · exact ⟨[], by simp [hout], by simp⟩
    · exact ⟨[s.reg r], hout, by simp⟩
  | halted _ ht => exact ⟨[], by simp [ht], by simp⟩
  | regIndex _ _ _ ht | unsupported _ ht => exact ⟨[], by simp [ht, State.raise], by simp⟩

/-! ## Runs -/

theorem run_succ_of_next {s u : State} (h : step s = .next u) (n : Nat) :
    Host.Core.run core (n + 1) s = Host.Core.run core n u := by
  have hcore : core.step s = .next u := h
  simp only [Host.Core.run, hcore]

theorem run_succ_of_fault {s : State} {e : Fault} (h : step s = .fault e) (n : Nat) :
    Host.Core.run core (n + 1) s = .fault e := by
  have hcore : core.step s = .fault e := h
  simp only [Host.Core.run, hcore]

/-- A run of at least one step that answers a state, taken apart at the first. -/
theorem step_of_run_succ {n : Nat} {s t : State} (h : Host.Core.run core (n + 1) s = .next t) :
    ∃ u, step s = .next u ∧ Host.Core.run core n u = .next t := by
  simp only [Host.Core.run] at h
  split at h
  · next u hu => exact ⟨u, hu, h⟩
  · cases h
  · cases h

/-- Settles O48, by induction on the number of steps: the first appends at most one value, the rest at most `n`. -/
theorem outputOnlyGrowsAlongRuns : Obligations.OutputOnlyGrowsAlongRuns := by
  intro n
  induction n with
  | zero =>
    intro s t h
    have ht : s = t := Host.Outcome.next.inj h
    exact ⟨[], by simp [ht], by simp⟩
  | succ n ih =>
    intro s t h
    obtain ⟨u, hu, hrun⟩ := step_of_run_succ h
    obtain ⟨first, hfirst, hone⟩ := out_of_stepWith hu
    obtain ⟨rest, hrest, hn⟩ := ih u t hrun
    refine ⟨first ++ rest, by rw [hrest, hfirst, List.append_assoc], ?_⟩
    rw [List.length_append]
    omega

/-- A run goes on from where its first `n` steps led. -/
theorem run_add_of_run {n : Nat} (k : Nat) : ∀ {s t : State}, Host.Core.run core n s = .next t →
    Host.Core.run core (n + k) s = Host.Core.run core k t := by
  induction n with
  | zero =>
    intro s t h
    have ht : s = t := Host.Outcome.next.inj h
    rw [Nat.zero_add, ht]
  | succ n ih =>
    intro s t h
    obtain ⟨u, hu, hrun⟩ := step_of_run_succ h
    rw [Nat.add_right_comm, run_succ_of_next hu, ih hrun]

/-- A state that is Halted or Faulted has no step (10_state.md R23). -/
theorem stepWith_of_not_running {s : State} (h : s.status ≠ .running) (opc : Opcodes) :
    ∃ e, stepWith opc s = .fault e := by
  cases hst : s.status with
  | running => exact absurd hst h
  | halted => exact ⟨_, stepWith_of_halted hst opc⟩
  | faulted c info => exact ⟨_, stepWith_of_faulted hst opc⟩

/-- Settles O49: the longer run goes on from the ended state, whose first step is a fault of the model. -/
theorem runStopsWhereItEnds : Obligations.RunStopsWhereItEnds := by
  intro n m s t h hst
  obtain ⟨e, he⟩ := stepWith_of_not_running hst defaultOpcodes
  exact ⟨e, (run_add_of_run (m + 1) h).trans (run_succ_of_fault he m)⟩

end Sys2Proof.Machine


/-! The engine refines the pseudocode over plain numbers: `ofState` carries every update of the state, every instruction and
every step to the pseudocode's (40_execute_loop.md R70, 20_memory.md R43). -/

namespace Sys2Proof.Pseudo

open Sys2Proof.Machine

variable (s : State)

/-! ## The state's operations in numbers -/

theorem upd_self (f : Nat → Nat) (i v : Nat) : upd f i v i = v := if_pos rfl

theorem ofState_x (r : RegIdx) : (ofState s).x r.val = (s.reg r).toNat := dif_pos r.isLt

theorem ofState_mem (a : Byte) : (ofState s).mem a.toNat = (s.read a).toNat := rfl

theorem ofState_setPc (v : Byte) : ofState (s.setPc v) = { ofState s with pc := v.toNat } := rfl

theorem ofState_setSp (v : Byte) : ofState (s.setSp v) = { ofState s with sp := v.toNat } := rfl

theorem ofState_setFl (f : Flags) : ofState (s.setFl f) = { ofState s with g := f.g, l := f.l, e := f.e } := rfl

theorem ofState_halt : ofState (s.setStatus .halted) = { ofState s with status := .halted } := rfl

theorem ofState_raise (c : FaultCause) : ofState (s.raise c) =
    { ofState s with status := .faulted c.code s.pc.toNat s.fetch.ir.toNat s.fetch.a.toNat s.fetch.b.toNat } := rfl

theorem ofState_advance (n : Nat) :
    ofState (s.advance (BitVec.ofNat 8 n)) = { ofState s with pc := ((ofState s).pc + n) % 256 } := by
  rw [State.advance, ofState_setPc, byte_add_toNat]
  rfl

theorem ofState_advance_two : ofState (s.advance 2) = { ofState s with pc := ((ofState s).pc + 2) % 256 } :=
  ofState_advance s 2

theorem ofState_advance_three : ofState (s.advance 3) = { ofState s with pc := ((ofState s).pc + 3) % 256 } :=
  ofState_advance s 3

theorem ofState_emit (v : Byte) : ofState (s.emit v) = { ofState s with out := (ofState s).out ++ [v.toNat] } := by
  simp [ofState]

theorem ofState_setReg (r : RegIdx) (v : Byte) :
    ofState (s.setReg r v) = { ofState s with x := upd (ofState s).x r.val v.toNat } := by
  have hx : (ofState (s.setReg r v)).x = upd (ofState s).x r.val v.toNat := by
    funext i
    by_cases hi : i < 8
    · have hreg := State.reg_setReg s r ⟨i, hi⟩ v
      simp only [ofState, upd, hi, dif_pos, hreg, Fin.ext_iff]
      split <;> rfl
    · have hne : i ≠ r.val := by omega
      simp only [ofState, upd, hi, dif_neg, hne, if_neg, not_false_eq_true]
  rw [← hx]
  rfl

theorem ofState_write (a v : Byte) :
    ofState (s.write a v) = { ofState s with mem := upd (ofState s).mem a.toNat v.toNat } := by
  have hmem : (ofState (s.write a v)).mem = upd (ofState s).mem a.toNat v.toNat := by
    funext i
    show (Memory.read (Memory.write s.mem a.toNat v) i).toNat = upd (ofState s).mem a.toNat v.toNat i
    rw [Memory.read_write]
    exact apply_ite BitVec.toNat _ _ _
  rw [← hmem]
  rfl

/-! ## The instructions -/

theorem ofState_jumpIf (taken : Bool) (r : RegIdx) : ofState (jumpIf taken s r) =
    if taken then { ofState s with pc := (ofState s).x r.val } else { ofState s with pc := ((ofState s).pc + 2) % 256 } := by
  cases taken
  · exact ofState_advance_two s
  · rw [ofState_x]
    rfl

/-- CMP's three tests leave in the pseudocode's flags what the comparison leaves in the engine's. -/
theorem ofState_cmp (r q : RegIdx) :
    ofState ((s.setFl (compareFlags (s.reg r) (s.reg q))).advance 3) = cmp r.val q.val (ofState s) := by
  rw [ofState_advance_three, ofState_setFl]
  simp only [cmp, ofState_x]
  obtain hgt | heq | hlt := lt_trichotomy (s.reg q).toNat (s.reg r).toNat
  · rw [compareFlags_of_gt hgt, if_pos hgt]
  · rw [compareFlags_of_eq heq.symm, if_neg heq.ge.not_gt, if_neg heq.le.not_gt]
  · rw [compareFlags_of_lt hlt, if_neg hlt.not_gt, if_pos hlt]

theorem ofState_push (r : RegIdx) :
    ofState (((s.setSp (s.sp - 1)).write (s.sp - 1) (s.reg r)).advance 2) = push r.val (ofState s) := by
  rw [ofState_advance_two, ofState_write, ofState_setSp]
  simp only [push, ofState_x, byte_sub_one_toNat]
  rfl

theorem ofState_call (r : RegIdx) : ofState ((callPush s).setPc ((callPush s).reg r)) = call r.val (ofState s) := by
  have hptr : (ofState s).x 7 = (s.reg 7).toNat := ofState_x s 7
  have hret : (s.pc + 2).toNat = ((ofState s).pc + 2) % 256 := byte_add_toNat s.pc 2
  rw [ofState_setPc, ← ofState_x, callPush_eq, ofState_write, ofState_setReg, byte_sub_one_toNat, hret]
  simp only [call, upd_self, hptr]
  rfl

theorem ofState_ldi (r : RegIdx) (b : Byte) :
    ofState ((s.setReg r b).advance 3) = ldi r.val b.toNat (ofState s) := by
  rw [ofState_advance_three, ofState_setReg]
  rfl

theorem ofState_prn (r : RegIdx) : ofState ((s.emit (s.reg r)).advance 2) = prn r.val (ofState s) := by
  rw [ofState_advance_two, ofState_emit, ← ofState_x]
  rfl

theorem ofState_pop (r : RegIdx) :
    ofState (((s.setReg r (s.read s.sp)).setSp (s.sp + 1)).advance 2) = pop r.val (ofState s) := by
  have hsp : (s.sp + 1).toNat = (s.sp.toNat + 1) % 256 := byte_add_toNat s.sp 1
  rw [ofState_advance_two, ofState_setSp, ofState_setReg, hsp]
  rfl

theorem ofState_mul (r q : RegIdx) :
    ofState ((s.setReg r (s.reg r * s.reg q)).advance 3) = mul r.val q.val (ofState s) := by
  rw [ofState_advance_three, ofState_setReg, BitVec.toNat_mul, ← ofState_x, ← ofState_x]
  rfl

theorem ofState_add (r q : RegIdx) :
    ofState ((s.setReg r (s.reg r + s.reg q)).advance 3) = add r.val q.val (ofState s) := by
  rw [ofState_advance_three, ofState_setReg, BitVec.toNat_add, ← ofState_x, ← ofState_x]
  rfl

theorem ofState_ret :
    ofState ((s.setPc (s.read (s.reg 7))).setReg 7 (s.reg 7 + 1)) = ret (ofState s) := by
  have hptr : (ofState s).x 7 = (s.reg 7).toNat := ofState_x s 7
  have hinc : (s.reg 7 + 1).toNat = ((s.reg 7).toNat + 1) % 256 := byte_add_toNat (s.reg 7) 1
  rw [ofState_setReg, ofState_setPc, hinc, ← ofState_mem, ← hptr]
  rfl

theorem ofState_jmp (r : RegIdx) : ofState (s.setPc (s.reg r)) = jmp r.val (ofState s) := by
  rw [ofState_setPc, ← ofState_x]
  rfl

theorem ofState_jeq (r : RegIdx) : ofState (jumpIf (jeqTaken s.fl) s r) = jeq r.val (ofState s) :=
  ofState_jumpIf s s.fl.e r

theorem ofState_jne (r : RegIdx) : ofState (jumpIf (jneTaken s.fl) s r) = jne r.val (ofState s) := by
  rw [ofState_jumpIf, jneTaken, jne]
  cases hE : s.fl.e <;> simp [ofState, hE]

/-! ## The checks and the dispatch -/

/-- A handler behind the check of the fetched operand byte `a`. -/
theorem ofResult_withReg {k : RegIdx → State} {handler : Nat → NumState → NumState}
    (hk : ∀ r : RegIdx, ofState (k r) = handler r.val (ofState s)) : ofResult (withReg s s.fetch.a k) =
      some (check1 s.fetch.ir.toNat s.fetch.a.toNat s.fetch.b.toNat handler (ofState s)) := by
  obtain ⟨r, ha, he⟩ | ⟨ha, he⟩ := withReg_cases s s.fetch.a k
  · have hlow : ¬ 7 < s.fetch.a.toNat := by omega
    rw [he, check1, if_neg hlow, ha, ← hk]
    rfl
  · rw [he, check1, if_pos ha]
    exact congrArg some (ofState_raise s _)

/-- The same for two operand bytes. -/
theorem ofResult_withRegs {k : RegIdx → RegIdx → State} {handler : Nat → Nat → NumState → NumState}
    (hk : ∀ r q : RegIdx, ofState (k r q) = handler r.val q.val (ofState s)) :
    ofResult (withRegs s s.fetch.a s.fetch.b k) =
      some (check2 s.fetch.ir.toNat s.fetch.a.toNat s.fetch.b.toNat handler (ofState s)) := by
  obtain ⟨r, q, ha, hb, he⟩ | ⟨hab, he⟩ := withRegs_cases s s.fetch.a s.fetch.b k
  · have hlow : ¬ (7 < s.fetch.a.toNat ∨ 7 < s.fetch.b.toNat) := by omega
    rw [he, check2, if_neg hlow, ha, hb, ← hk]
    rfl
  · rw [he, check2, if_pos hab]
    exact congrArg some (ofState_raise s _)

/-- The branch of the pseudocode's dispatch that goes with an answer of the decoder for the slot `w`. -/
def branch (w : Slot) (m : NumState) : Except DecodeError Instr → NumState
  | .ok .hlt => { m with status := .halted }
  | .ok (.ldi _ _) => check1 w.ir.toNat w.a.toNat w.b.toNat (fun a => ldi a w.b.toNat) m
  | .ok (.prn _) => check1 w.ir.toNat w.a.toNat w.b.toNat prn m
  | .ok (.push _) => check1 w.ir.toNat w.a.toNat w.b.toNat push m
  | .ok (.pop _) => check1 w.ir.toNat w.a.toNat w.b.toNat pop m
  | .ok (.mul _ _) => check2 w.ir.toNat w.a.toNat w.b.toNat mul m
  | .ok (.add _ _) => check2 w.ir.toNat w.a.toNat w.b.toNat add m
  | .ok (.cmp _ _) => check2 w.ir.toNat w.a.toNat w.b.toNat cmp m
  | .ok (.call _) => check1 w.ir.toNat w.a.toNat w.b.toNat call m
  | .ok .ret => ret m
  | .ok (.jmp _) => check1 w.ir.toNat w.a.toNat w.b.toNat jmp m
  | .ok (.jeq _) => check1 w.ir.toNat w.a.toNat w.b.toNat jeq m
  | .ok (.jne _) => check1 w.ir.toNat w.a.toNat w.b.toNat jne m
  | .error _ => { m with status := .faulted 1 m.pc w.ir.toNat w.a.toNat w.b.toNat }

/-- The pseudocode's comparisons of numbers are the decoder's of bytes, in the same order. -/
theorem dispatch_eq_branch (opc : Opcodes) (w : Slot) (m : NumState) :
    dispatch opc w.ir.toNat w.a.toNat w.b.toNat m = branch w m (decode opc w) := by
  simp only [dispatch, decode, BitVec.toNat_inj, apply_ite (branch w m)]
  rfl

/-- The instruction of each row, run on the fetched operand bytes, does what the pseudocode's branch does. -/
theorem ofResult_exec_of_mem_decodeRows {opc : Opcodes} {ir : Byte} {i : Instr}
    (h : (ir, i) ∈ decodeRows opc s.fetch.a s.fetch.b) :
    ofResult (exec i s) = some (branch s.fetch (ofState s) (.ok i)) := by
  have hrows : ∀ p ∈ decodeRows opc s.fetch.a s.fetch.b,
      ofResult (exec p.2 s) = some (branch s.fetch (ofState s) (.ok p.2)) := by
    simp only [decodeRows, List.forall_mem_cons]
    have hldi := ofResult_withReg s (handler := fun a => ldi a s.fetch.b.toNat) fun r => ofState_ldi s r s.fetch.b
    exact ⟨hldi, ofResult_withReg s (ofState_prn s), ofResult_withReg s (ofState_push s),
      ofResult_withReg s (ofState_pop s), ofResult_withRegs s (ofState_mul s), ofResult_withRegs s (ofState_add s),
      ofResult_withRegs s (ofState_cmp s), ofResult_withReg s (ofState_call s), congrArg some (ofState_ret s),
      ofResult_withReg s (ofState_jmp s), ofResult_withReg s (ofState_jeq s), ofResult_withReg s (ofState_jne s),
      congrArg some (ofState_halt s), by simp⟩
  exact hrows _ h

/-- The dispatch of the fetched slot and the pseudocode's. -/
theorem ofResult_dispatchSlot (opc : Opcodes) : ofResult (dispatchSlot opc s s.fetch) =
    some (dispatch opc s.fetch.ir.toNat s.fetch.a.toNat s.fetch.b.toNat (ofState s)) := by
  rw [dispatch_eq_branch]
  obtain ⟨i, hrow, hd⟩ | ⟨_, hd⟩ := decode_row_cases opc s.fetch.ir s.fetch.a s.fetch.b
  · rw [dispatchSlot_of_decode hd, hd]
    exact ofResult_exec_of_mem_decodeRows s hrow
  · rw [dispatchSlot_of_refused hd, hd]
    exact congrArg some (ofState_raise s _)

/-- The pseudocode's step from a Running state dispatches the three bytes that the engine fetches. -/
theorem step_ofState_of_running {s : State} (h : s.status = .running) (opc : Opcodes) : step opc (ofState s) =
    some (dispatch opc s.fetch.ir.toNat s.fetch.a.toNat s.fetch.b.toNat (ofState s)) := by
  have hst : (ofState s).status = .running := by simp only [ofState, h]
  have ha : ((ofState s).pc + 1) % 256 = (s.pc + 1).toNat := (byte_add_toNat s.pc 1).symm
  have hb : ((ofState s).pc + 2) % 256 = (s.pc + 2).toNat := (byte_add_toNat s.pc 2).symm
  simp only [step, hst, ha, hb]
  rfl

/-- Settles O50: by status; a Running engine dispatches the same three bytes, and neither machine has a step otherwise. -/
theorem stepRefinesPseudocode : Obligations.StepRefinesPseudocode := by
  intro opc s
  cases h : s.status with
  | running => rw [step_ofState_of_running h, stepWith_running opc h, ofResult_dispatchSlot]
  | halted =>
    rw [stepWith_of_halted h]
    simp only [step, ofState, h, ofResult]
  | faulted c info =>
    rw [stepWith_of_faulted h]
    simp only [step, ofState, h, ofResult]

end Sys2Proof.Pseudo


/-! What the registers, the two stack pointers and memory influence, and the new `pc` (10_state.md Tables S2 and S3,
20_memory.md Table M1). -/

namespace Sys2Proof.Machine

/-! ## Updates that pass through an instruction -/

/-- An update `g` passes through a handler behind its operand check if it passes through the fault and, for the register the
operand names, through the handler. -/
theorem withReg_map_of_index (g : State → State) (s : State) {k k' : RegIdx → State} (a : Byte)
    (hraise : (g s).raise .regIndexOutOfRange = g (s.raise .regIndexOutOfRange))
    (hk : ∀ r : RegIdx, a.toNat = r.val → k' r = g (k r)) : withReg (g s) a k' = mapNext g (withReg s a k) := by
  obtain ⟨r, ha, he⟩ | ⟨ha, he⟩ := withReg_cases s a k
  · rw [he, withReg_of_index _ ha, hk r ha]; rfl
  · rw [he, withReg_of_high _ ha, hraise]; rfl

/-- The same for two register operands. -/
theorem withRegs_map_of_index (g : State → State) (s : State) {k k' : RegIdx → RegIdx → State} (a b : Byte)
    (hraise : (g s).raise .regIndexOutOfRange = g (s.raise .regIndexOutOfRange))
    (hk : ∀ r q : RegIdx, a.toNat = r.val → b.toNat = q.val → k' r q = g (k r q)) :
    withRegs (g s) a b k' = mapNext g (withRegs s a b k) := by
  obtain ⟨r, q, ha, hb, he⟩ | ⟨hab, he⟩ := withRegs_cases s a b k
  · rw [he, withRegs_of_index _ ha hb, hk r q ha hb]; rfl
  · rw [he, withRegs_of_high _ hab, hraise]; rfl

/-! ## The registers -/

theorem State.reg_setReg_of_ne (s : State) {r q : RegIdx} (h : q ≠ r) (v : Byte) : (s.setReg r v).reg q = s.reg q :=
  s.setReg_keepsRegsBut r v q h

theorem State.setReg_comm (s : State) {r q : RegIdx} (h : r ≠ q) (v w : Byte) :
    (s.setReg q v).setReg r w = (s.setReg r w).setReg q v := by
  have hx : (s.x.set q.val v).set r.val w = (s.x.set r.val w).set q.val v :=
    Vector.set_comm _ _ (Fin.val_ne_of_ne h.symm)
  exact congrArg (fun x => { s with x := x }) hx

theorem State.setReg_setReg (s : State) (r : RegIdx) (v w : Byte) : (s.setReg r v).setReg r w = s.setReg r w := by
  have hx : (s.x.set r.val v).set r.val w = s.x.set r.val w := Vector.set_set v _
  exact congrArg (fun x => { s with x := x }) hx

theorem ne_of_beq_val_false {a : Byte} {r q : RegIdx} (ha : a.toNat = r.val) (h : (a.toNat == q.val) = false) :
    r ≠ q := by
  intro e
  subst e
  simp [ha] at h

/-- A register an instruction does not write keeps its value (Table S2), a fault being no write. -/
theorem reg_of_exec {i : Instr} {s t : State} (h : exec i s = .next t) {q : RegIdx} (hq : i.writes q = false) :
    t.reg q = s.reg q := by
  have ht {u : State} (he : exec i s = .next u) : t = u := Host.Outcome.next.inj (h.symm.trans he)
  cases exec_case i s with
  | ldi a b r hi ha he | pop a r hi ha he | mul a b r _ hi ha _ he | add a b r _ hi ha _ he =>
    subst hi
    rw [ht he]
    exact s.reg_setReg_of_ne (ne_of_beq_val_false ha hq).symm _
  | call a r hi ha he =>
    subst hi
    have hne : q ≠ 7 := fun e => by simp [e, Instr.writes] at hq
    rw [ht he, State.reg_setPc, callPush_reg, if_neg hne]
  | ret hi he =>
    subst hi
    have hne : q ≠ 7 := fun e => by simp [e, Instr.writes] at hq
    rw [ht he, State.reg_setReg_of_ne _ hne, State.reg_setPc]
  | jeq a r _ _ he | jne a r _ _ he => rw [ht he, jumpIf_eq_setPc, State.reg_setPc]
  | raised _ he | prn _ _ _ _ he | push _ _ _ _ he | cmp _ _ _ _ _ _ _ he | jmp _ _ _ _ he | hlt _ he => rw [ht he]; rfl

/-- The new value of a register that is neither read nor CALL's pointer passes through CALL's push. -/
theorem callPush_setReg (s : State) {q : RegIdx} (h : q ≠ 7) (v : Byte) :
    callPush (s.setReg q v) = (callPush s).setReg q v := by
  have hptr : (s.setReg q v).reg 7 = s.reg 7 := s.reg_setReg_of_ne h.symm v
  rw [callPush_eq, hptr, s.setReg_comm h.symm]
  rfl

theorem jumpIf_setReg {taken : Bool} (s : State) {r q : RegIdx} (h : taken = true → r ≠ q) (v : Byte) :
    jumpIf taken (s.setReg q v) r = (jumpIf taken s r).setReg q v := by
  rw [jumpIf_eq_setPc, jumpIf_eq_setPc]
  cases taken with
  | false => rfl
  | true =>
    rw [s.reg_setReg_of_ne (h rfl)]
    rfl

/-- A register that an instruction neither reads nor writes influences nothing but itself (Table S2). -/
theorem exec_setReg_of_untouched {i : Instr} {s : State} {q : RegIdx} (hr : i.reads s q = false)
    (hw : i.writes q = false) (v : Byte) : exec i (s.setReg q v) = mapNext (fun t => t.setReg q v) (exec i s) := by
  cases i with
  | hlt => rfl
  | ret =>
    have hne : (7 : RegIdx) ≠ q := fun e => by simp [← e, Instr.writes] at hw
    rw [exec_ret, exec_ret, s.reg_setReg_of_ne hne]
    exact congrArg _ (State.setReg_comm (s.setPc (s.read (s.reg 7))) hne v _)
  | ldi a b =>
    refine withReg_map_of_index (·.setReg q v) s a rfl fun r ha => ?_
    exact congrArg (·.advance 3) (s.setReg_comm (ne_of_beq_val_false ha hw) v b)
  | pop a =>
    refine withReg_map_of_index (·.setReg q v) s a rfl fun r ha => ?_
    exact congrArg (fun u : State => (u.setSp (s.sp + 1)).advance 2) (s.setReg_comm (ne_of_beq_val_false ha hw) v _)
  | prn a | push a | jmp a =>
    refine withReg_map_of_index (·.setReg q v) s a rfl fun r ha => ?_
    rw [s.reg_setReg_of_ne (ne_of_beq_val_false ha hr)]
    rfl
  | jeq a =>
    refine withReg_map_of_index (·.setReg q v) s a rfl fun r ha => jumpIf_setReg s (fun hE => ?_) v
    exact ne_of_beq_val_false ha ((Bool.and_eq_false_iff.mp hr).resolve_left (by simpa [jeqTaken] using hE))
  | jne a =>
    refine withReg_map_of_index (·.setReg q v) s a rfl fun r ha => jumpIf_setReg s (fun hE => ?_) v
    exact ne_of_beq_val_false ha ((Bool.and_eq_false_iff.mp hr).resolve_left (by simpa [jneTaken] using hE))
  | call a =>
    obtain ⟨hptr, ha'⟩ := Bool.or_eq_false_iff.mp hr
    have hne : q ≠ 7 := fun e => by simp [e] at hptr
    refine withReg_map_of_index (·.setReg q v) s a rfl fun r ha => ?_
    rw [callPush_setReg s hne, State.reg_setReg_of_ne _ (ne_of_beq_val_false ha ha')]
    rfl
  | mul a b | add a b =>
    obtain ⟨ha', hb'⟩ := Bool.or_eq_false_iff.mp hr
    refine withRegs_map_of_index (·.setReg q v) s a b rfl fun r r' ha hb => ?_
    have hra : (s.setReg q v).reg r = s.reg r := s.reg_setReg_of_ne (ne_of_beq_val_false ha ha') v
    have hrb : (s.setReg q v).reg r' = s.reg r' := s.reg_setReg_of_ne (ne_of_beq_val_false hb hb') v
    simp only [aluHandler, alu, hra, hrb]
    exact congrArg (·.advance 3) (s.setReg_comm (ne_of_beq_val_false ha ha') v _)
  | cmp a b =>
    obtain ⟨ha', hb'⟩ := Bool.or_eq_false_iff.mp hr
    refine withRegs_map_of_index (·.setReg q v) s a b rfl fun r r' ha hb => ?_
    have hra : (s.setReg q v).reg r = s.reg r := s.reg_setReg_of_ne (ne_of_beq_val_false ha ha') v
    have hrb : (s.setReg q v).reg r' = s.reg r' := s.reg_setReg_of_ne (ne_of_beq_val_false hb hb') v
    simp only [aluHandler, alu, hra, hrb]
    rfl

/-- A register that an instruction writes without reading it has no influence: only LDI and POP have one (Table S2). -/
theorem exec_setReg_of_overwritten {i : Instr} {s : State} {q : RegIdx} (hr : i.reads s q = false)
    (hw : i.writes q = true) (v : Byte) : exec i (s.setReg q v) = exec i s := by
  cases i with
  | ldi a b =>
    have ha : a.toNat = q.val := beq_iff_eq.mp hw
    rw [exec_ldi_of_index ha, exec_ldi_of_index ha, State.setReg_setReg]
  | pop a =>
    have ha : a.toNat = q.val := beq_iff_eq.mp hw
    rw [exec_pop_of_index ha, exec_pop_of_index ha, State.setReg_setReg]
    rfl
  | mul _ _ | add _ _ | call _ => exact absurd ((Bool.or_eq_false_iff.mp hr).1.symm.trans hw) (by decide)
  | ret => exact absurd (hr.symm.trans hw) (by decide)
  | prn _ | push _ | cmp _ _ | jmp _ | jeq _ | jne _ | hlt => exact absurd hw (by simp [Instr.writes])

/-- Settles O34: the three rules of Table S2; none of them needs the operands to name registers. -/
theorem registerAccessFollowsTable : Obligations.RegisterAccessFollowsTable := fun _ _ _ _ =>
  ⟨fun _ h hw => reg_of_exec h hw, fun v hr hw => exec_setReg_of_untouched hr hw v,
    fun v hr hw => exec_setReg_of_overwritten hr hw v⟩

/-! ## The two stack pointers -/

theorem jumpIf_setSp (taken : Bool) (s : State) (v : Byte) (r : RegIdx) :
    jumpIf taken (s.setSp v) r = (jumpIf taken s r).setSp v := by
  cases taken <;> rfl

/-- The scalar pointer passes through every instruction but PUSH and POP. -/
theorem exec_setSp {i : Instr} (hpush : ∀ a, i ≠ .push a) (hpop : ∀ a, i ≠ .pop a) (s : State) (v : Byte) :
    exec i (s.setSp v) = mapNext (fun t => t.setSp v) (exec i s) := by
  cases i with
  | push a => exact absurd rfl (hpush a)
  | pop a => exact absurd rfl (hpop a)
  | jeq a => exact withReg_map (·.setSp v) s a rfl (jumpIf_setSp (jeqTaken s.fl) s v)
  | jne a => exact withReg_map (·.setSp v) s a rfl (jumpIf_setSp (jneTaken s.fl) s v)
  | mul a b | add a b | cmp a b => exact withRegs_map (·.setSp v) s a b rfl fun _ _ => rfl
  | ldi a _ | prn a | call a | jmp a => exact withReg_map (·.setSp v) s a rfl fun _ => rfl
  | ret | hlt => rfl

/-- An instruction other than PUSH and POP leaves the scalar pointer alone: it carries any value of `sp` along, so the one
that is there. -/
theorem sp_of_exec {i : Instr} {s t : State} (h : exec i s = .next t) (hpush : ∀ a, i ≠ .push a)
    (hpop : ∀ a, i ≠ .pop a) : t.sp = s.sp := by
  have hself : exec i s = mapNext (fun t => t.setSp s.sp) (exec i s) := exec_setSp hpush hpop s s.sp
  rw [h] at hself
  have ht : t = t.setSp s.sp := Host.Outcome.next.inj hself
  rw [ht, State.setSp_sp]

theorem push_reads_seven {a : Byte} (h : a.toNat ≠ 7) (s : State) : (Instr.push a).reads s 7 = false :=
  beq_eq_false_iff_ne.mpr h

theorem pop_writes_seven {a : Byte} (h : a.toNat ≠ 7) : (Instr.pop a).writes 7 = false :=
  beq_eq_false_iff_ne.mpr h

/-- Settles O36: `sp` by what PUSH and POP alone do to it, `x[7]` as one register among the eight, by Table S2; the last clause
from the effects of PUSH and POP. -/
theorem stackPointersAreIndependent : Obligations.StackPointersAreIndependent := by
  refine ⟨fun i s t h hpush hpop => sp_of_exec h hpush hpop, fun i s v hpush hpop => exec_setSp hpush hpop s v,
    fun a s t h => reg_of_exec h rfl, fun a s t ha h => reg_of_exec h (pop_writes_seven ha), fun a v s ha => ⟨?_, ?_⟩,
    fun v s => exec_setReg_of_overwritten rfl (by decide) v, fun a r s ha => ⟨?_, ?_⟩⟩
  · exact exec_setReg_of_untouched (push_reads_seven ha s) rfl v
  · exact exec_setReg_of_untouched rfl (pop_writes_seven ha) v
  · obtain ⟨_, heffect, _⟩ := pushStoresBelowSp s a
    obtain ⟨t, he, hsp, _, hcell, hmem, _⟩ := heffect r ha
    exact ⟨t, he, hsp, hcell, hmem⟩
  · obtain ⟨_, heffect, _⟩ := popLoadsAtSp s a
    obtain ⟨t, he, hreg, _, hsp, _⟩ := heffect r ha
    exact ⟨t, he, BitVec.eq_of_toNat_eq (hsp.trans (byte_add_toNat s.sp 1).symm), hreg⟩

/-! ## Memory -/

/-- For operands that name registers, a memory that differs in no byte the instruction loads leads to the same state but for
memory, and to the same byte stored. -/
theorem exec_withMem {i : Instr} {s : State} {m : Memory} (hw : i.wellFormed = true)
    (hload : ∀ b, i.loadAddr s = some b → { s with mem := m }.read b = s.read b) :
    ∃ t m', exec i s = .next t ∧ exec i { s with mem := m } = .next { t with mem := m' } ∧
      ∀ b, i.storeAddr s = some b → { t with mem := m' }.read b = t.read b := by
  cases exec_case i s with
  | raised hbad _ => exact absurd (hw.symm.trans hbad) (by decide)
  | ldi _ _ r hi ha he => subst hi; exact ⟨_, m, he, exec_ldi_of_index ha _ _, nofun⟩
  | prn _ r hi ha he => subst hi; exact ⟨_, m, he, exec_prn_of_index ha _, nofun⟩
  | mul _ _ r q hi ha hb he => subst hi; exact ⟨_, m, he, exec_mul_of_index ha hb _, nofun⟩
  | add _ _ r q hi ha hb he => subst hi; exact ⟨_, m, he, exec_add_of_index ha hb _, nofun⟩
  | cmp _ _ r q hi ha hb he => subst hi; exact ⟨_, m, he, exec_cmp_of_index ha hb _, nofun⟩
  | jmp _ r hi ha he => subst hi; exact ⟨_, m, he, exec_jmp_of_index ha _, nofun⟩
  | hlt hi he => subst hi; exact ⟨_, m, he, exec_hlt _, nofun⟩
  | jeq _ r hi ha he =>
    subst hi
    rw [jumpIf_eq_setPc] at he
    exact ⟨_, m, he, (exec_jeq_of_index ha _).trans (congrArg _ (jumpIf_eq_setPc _ _ r)), nofun⟩
  | jne _ r hi ha he =>
    subst hi
    rw [jumpIf_eq_setPc] at he
    exact ⟨_, m, he, (exec_jne_of_index ha _).trans (congrArg _ (jumpIf_eq_setPc _ _ r)), nofun⟩
  | pop _ r hi ha he =>
    subst hi
    have he' := exec_pop_of_index ha { s with mem := m }
    rw [hload s.sp rfl] at he'
    exact ⟨_, m, he, he', nofun⟩
  | ret hi he =>
    subst hi
    have he' := exec_ret { s with mem := m }
    have hbyte : { s with mem := m }.read ({ s with mem := m }.reg 7) = s.read (s.reg 7) := hload (s.reg 7) rfl
    rw [hbyte] at he'
    exact ⟨_, m, he, he', nofun⟩
  | push _ r hi ha he =>
    subst hi
    refine ⟨_, _, he, exec_push_of_index ha { s with mem := m }, fun b hb => ?_⟩
    obtain rfl : s.sp - 1 = b := Option.some.inj hb
    exact (State.read_write_self _ _ _).trans (State.read_write_self _ _ _).symm
  | call _ r hi ha he =>
    subst hi
    refine ⟨_, _, he, exec_call_of_index ha { s with mem := m }, fun b hb => ?_⟩
    obtain rfl : s.reg 7 - 1 = b := Option.some.inj hb
    exact (State.read_write_self _ _ _).trans (State.read_write_self _ _ _).symm

/-- Settles O37: the store rule is `read_of_exec`; the load rule compares the two memories of one state. -/
theorem memoryAccessFollowsTable : Obligations.MemoryAccessFollowsTable := by
  refine ⟨fun i s t h b hb => read_of_exec h hb, fun i s s' hw hs' hload => ?_⟩
  generalize s'.mem = m at hs'
  subst hs'
  obtain ⟨t, m', he, he', hstore⟩ := exec_withMem hw hload
  exact ⟨t, _, he, he', rfl, hstore⟩

/-! ## The new `pc` -/

theorem State.regAt_of_index (s : State) {a : Byte} {r : RegIdx} (h : a.toNat = r.val) : s.regAt a = s.reg r := by
  have hlt : a.toNat < 8 := h ▸ r.isLt
  have hr : (⟨a.toNat, hlt⟩ : RegIdx) = r := Fin.ext h
  rw [State.regAt, dif_pos hlt, hr]

/-- Taken or not, the new `pc` of a conditional jump. -/
theorem jumpIf_pc_toNat (taken : Bool) (s : State) (r : RegIdx) :
    (jumpIf taken s r).pc.toNat = if taken then (s.reg r).toNat else (s.pc.toNat + 2) % 256 := by
  cases taken
  · exact byte_add_toNat s.pc 2
  · rfl

/-- Settles O39: each row of Table S3 from the state that the instruction's rule gives. -/
theorem pcFollowsTable : Obligations.PcFollowsTable := by
  intro i s hw
  cases exec_case i s with
  | raised hbad _ => exact absurd (hw.symm.trans hbad) (by decide)
  | ldi _ _ _ hi _ he | mul _ _ _ _ hi _ _ he | add _ _ _ _ hi _ _ he | cmp _ _ _ _ hi _ _ he =>
    subst hi
    exact ⟨_, he, byte_add_toNat s.pc 3⟩
  | prn _ _ hi _ he | push _ _ hi _ he | pop _ _ hi _ he =>
    subst hi
    exact ⟨_, he, byte_add_toNat s.pc 2⟩
  | call a r hi ha he =>
    subst hi
    have h7 : a.toNat = 7 ↔ r = 7 := by rw [ha, Fin.ext_iff]; rfl
    refine ⟨_, he, ?_⟩
    rw [State.setPc_pc, callPush_reg, Instr.newPc, s.regAt_of_index ha, ← byte_sub_one_toNat]
    simp only [h7, apply_ite BitVec.toNat]
  | ret hi he =>
    subst hi
    exact ⟨_, he, rfl⟩
  | jmp a r hi ha he =>
    subst hi
    exact ⟨_, he, congrArg BitVec.toNat (s.regAt_of_index ha).symm⟩
  | jeq a r hi ha he =>
    subst hi
    refine ⟨_, he, ?_⟩
    rw [jumpIf_pc_toNat, Instr.newPc, s.regAt_of_index ha]
  | jne a r hi ha he =>
    subst hi
    refine ⟨_, he, ?_⟩
    rw [jumpIf_pc_toNat, Instr.newPc, s.regAt_of_index ha]
    cases s.fl.e <;> rfl
  | hlt hi he =>
    subst hi
    exact ⟨_, he, rfl⟩

end Sys2Proof.Machine


/-! Instructions in sequence: what stands at `pc` is what the next step runs, a store is seen by the next fetch, and what was
pushed comes back (20_memory.md section 5, 42_stack.md, 44_control_transfer.md). -/

namespace Sys2Proof.Machine

/-! ## The instruction at `pc` -/

/-- With distinct opcode bytes a Running engine runs the instruction of the row that the byte at `pc` selects, on the operand
byte that follows it. -/
theorem stepWith_of_row {opc : Opcodes} (hopc : opc.Distinct) {s : State} {ir a : Byte} {i : Instr}
    (h : s.status = .running) (hir : s.read s.pc = ir) (ha : s.read (s.pc + 1) = a)
    (hrow : (ir, i) ∈ decodeRows opc a (s.read (s.pc + 2))) : stepWith opc s = exec i s := by
  subst hir ha
  exact stepWith_of_decode h (decode_of_mem_decodeRows hopc hrow)

theorem State.read_placeSlot (s : State) (w : Slot) (b : Byte) : (s.placeSlot w).read b =
    if b = s.pc + 2 then w.b else if b = s.pc + 1 then w.a else if b = s.pc then w.ir else s.read b := by
  rw [State.placeSlot, State.read_write, State.read_write, State.read_write]

/-- The three addresses of a fetch differ, so none of the three writes undoes another. -/
theorem State.fetch_placeSlot (s : State) (w : Slot) : (s.placeSlot w).fetch = w := by
  have hpc : (s.placeSlot w).pc = s.pc := rfl
  simp [State.fetch_eq, hpc, State.read_placeSlot]

theorem decode_of_decodeTableWord {nbits w : Nat} {i : Instr} (h : decodeTableWord nbits w = some i) :
    decode defaultOpcodes (slotOfWord nbits w) = .ok i := by
  unfold decodeTableWord at h
  split at h
  · next j hj => rw [hj, Option.some.inj h]
  · cases h

/-- Settles O19: the placed slot is the one fetched, and the three writes of the placing change nothing else. -/
theorem placedWordRunsNext : Obligations.PlacedWordRunsNext := by
  intro s nbits w i hw
  refine ⟨?_, rfl, fun _ => rfl, fun a h0 h1 h2 => ?_⟩
  · have hfetch : (s.withFetchWord nbits w).fetch = slotOfWord nbits w := s.fetch_placeSlot _
    exact stepWith_of_decode rfl (hfetch ▸ decode_of_decodeTableWord hw)
  · have hread := s.read_placeSlot (slotOfWord nbits w) a
    rwa [if_neg h2, if_neg h1, if_neg h0] at hread

/-- Settles O15: JNE's row of the dispatch table, `pc` by the flag `E` and nothing else written, and the operand check, which
does not look at the flag. -/
theorem jneJumpsOnNotEqual : Obligations.JneJumpsOnNotEqual := by
  intro s a
  refine ⟨fun opc third hopc => ?_, fun r ha => ?_, fun ha => ?_⟩
  · have hrow : (opc.jne, .jne a) ∈ decodeRows opc a third := by simp [decodeRows]
    exact decode_of_mem_decodeRows hopc hrow
  · have htaken (hE : s.fl.e = false) : (jumpIf (!s.fl.e) s r).pc = s.reg r := (jumps_of_not_equal hE r).2
    have hnot (hE : s.fl.e = true) : PcPlus s (jumpIf (!s.fl.e) s r) 2 := (jumps_of_equal hE r).2
    exact ⟨_, exec_jne_of_index ha s, htaken, hnot, frame_of_eq_setPc (jumpIf_eq_setPc (!s.fl.e) s r)⟩
  · exact faultsOnIndex_of_not_wellFormed (i := .jne a) (isRegByte_false.mpr ha) s

/-! ## One store, seen by the next fetch and by the matching pop -/

/-- Settles O33: PUSH and CALL run with the fetched operand, and each cell of the next fetch reads as the old memory with the
one store in it. -/
theorem storeSeenByNextFetch : Obligations.StoreSeenByNextFetch := by
  intro opc hopc s a r h hr ha
  refine ⟨fun hir => ?_, fun hir => ?_⟩
  · have hstep : stepWith opc s = exec (.push a) s := stepWith_of_row hopc h hir ha (by simp [decodeRows])
    have hread (b : Byte) : ((s.setSp (s.sp - 1)).write (s.sp - 1) (s.reg r)).read b =
        if b = s.pushAddr .scalar then s.reg r else s.read b := State.read_write _ _ _ _
    exact ⟨_, hstep.trans (exec_push_of_index hr s), hread _, hread _, hread _⟩
  · have hstep : stepWith opc s = exec (.call a) s := stepWith_of_row hopc h hir ha (by simp [decodeRows])
    exact ⟨_, hstep.trans (exec_call_of_index hr s), callPush_read s _, callPush_read s _, callPush_read s _⟩

theorem regByte_toNat (r : RegIdx) : (regByte r).toNat = r.val := Nat.mod_eq_of_lt (by omega)

theorem pc_of_pcPlus {s t : State} {n : Nat} (h : PcPlus s t n) : t.pc = s.pc + BitVec.ofNat 8 n :=
  BitVec.eq_of_toNat_eq (h.trans (byte_add_toNat s.pc n).symm)

theorem PcPlus.trans {s t u : State} {m n : Nat} (ht : PcPlus s t m) (hu : PcPlus t u n) : PcPlus s u (m + n) := by
  unfold PcPlus at *
  omega

/-- Settles O43: the PUSH leaves the POP's two bytes alone, so the next step is the POP, which loads the stored byte. -/
theorem pushThenPopRestores : Obligations.PushThenPopRestores := by
  intro opc hopc s r c h hpush hr hpop hc hne2 hne3
  obtain ⟨_, hpushEffect, _⟩ := pushStoresBelowSp s (regByte r)
  obtain ⟨t, het, hsp, _, hcell, hmem, hpc, hregs, _, _, hst⟩ := hpushEffect r (regByte_toNat r)
  obtain ⟨_, hpopEffect, _⟩ := popLoadsAtSp t (regByte c)
  obtain ⟨u, heu, hreg, hregs', hsp', hpc', hmem', _⟩ := hpopEffect c (regByte_toNat c)
  have htpc : t.pc = s.pc + 2 := pc_of_pcPlus hpc
  have htpc1 : t.pc + 1 = s.pc + 3 := by rw [htpc, BitVec.add_assoc]; rfl
  have hir : t.read t.pc = opc.pop := by rw [htpc, hmem _ hne2.symm, hpop]
  have ha : t.read (t.pc + 1) = regByte c := by rw [htpc1, hmem _ hne3.symm, hc]
  have hspBack : u.sp = s.sp := by
    rw [BitVec.eq_of_toNat_eq (hsp'.trans (byte_add_toNat t.sp 1).symm), hsp]
    exact BitVec.sub_add_cancel s.sp 1
  have hstep : stepWith opc s = exec (.push (regByte r)) s := stepWith_of_row hopc h hpush hr (by simp [decodeRows])
  have hstep' : stepWith opc t = exec (.pop (regByte c)) t :=
    stepWith_of_row hopc (hst.trans h) hir ha (by simp [decodeRows])
  refine ⟨t, u, hstep.trans het, hstep'.trans heu, ?_, fun q hq => (hregs' q hq).trans (hregs q), hspBack,
    hpc.trans hpc', (hmem' _).trans hcell, fun b hb => (hmem' b).trans (hmem b hb)⟩
  rw [hreg, hsp, hcell]

/-- Settles O45: the RET loads what the CALL stored, through the pointer where the CALL left it. -/
theorem callThenRetReturns : Obligations.CallThenRetReturns := by
  intro opc hopc s r h hir ha
  obtain ⟨_, hcallEffect, _⟩ := callPushesReturnAddress s (regByte r)
  obtain ⟨t, het, hptr, _, _, hcell, _⟩ := hcallEffect r (regByte_toNat r)
  have hcall : stepWith opc s = exec (.call (regByte r)) s := stepWith_of_row hopc h hir ha (by simp [decodeRows])
  refine ⟨t, hcall.trans het, fun u hu huir hureg hucell => ?_⟩
  obtain ⟨_, v, hev, hpc, hinc, _⟩ := retPopsPc u
  have hret : stepWith opc u = exec .ret u := stepWith_of_row hopc hu huir rfl (by simp [decodeRows])
  refine ⟨v, hret.trans hev, ?_, ?_⟩
  · rw [PcPlus, hpc, hureg, hucell, hptr, hcell]
  · rw [BitVec.eq_of_toNat_eq (hinc.trans (byte_add_toNat (u.reg 7) 1).symm), hureg, hptr]
    exact BitVec.sub_add_cancel (s.reg 7) 1

end Sys2Proof.Machine


/-! Any number of pushes up to 256, then as many pops (42_stack.md, The pair). -/

namespace Sys2Proof.Machine

theorem pushAll_cons {r : RegIdx} {s t : State} (h : exec (.push (regByte r)) s = .next t) (rest : List RegIdx) :
    pushAll (r :: rest) s = pushAll rest t := by
  simp only [pushAll, h]

theorem popValues_succ {c : RegIdx} {s t : State} (h : exec (.pop (regByte c)) s = .next t) (n : Nat) :
    popValues c (n + 1) s = (popValues c n t).map fun p => (t.reg c :: p.1, p.2) := by
  simp only [popValues, h]

/-- One pop more, taken apart at the last instead of the first. -/
theorem popValues_succ_last {c : RegIdx} {n : Nat} : ∀ {s t u : State} {vs : List Byte}, popValues c n s = some (vs, t) →
    exec (.pop (regByte c)) t = .next u → popValues c (n + 1) s = some (vs ++ [u.reg c], u) := by
  induction n with
  | zero =>
    intro s t u vs h hu
    obtain ⟨rfl, rfl⟩ := Prod.mk.inj (Option.some.inj h)
    exact popValues_succ hu 0
  | succ n ih =>
    intro s t u vs h hu
    obtain ⟨s', hs'⟩ := exec_next (.pop (regByte c)) s
    rw [popValues_succ hs'] at h
    obtain ⟨⟨ws, _⟩, hws, heq⟩ := Option.map_eq_some_iff.mp h
    obtain ⟨rfl, rfl⟩ := Prod.mk.inj heq
    rw [popValues_succ hs', ih hws hu]
    rfl

/-- Pushing `n` registers leaves every cell alone that is not among the `n` below `sp`, counted downward modulo 256. -/
theorem pushAll_read {regs : List RegIdx} : ∀ {s t : State}, pushAll regs s = some t → ∀ {b : Byte},
    regs.length ≤ (s.sp - 1 - b).toNat → t.read b = s.read b := by
  induction regs with
  | nil =>
    intro s t h b _
    rw [Option.some.inj h]
  | cons r rest ih =>
    intro s t h b hb
    obtain ⟨_, heffect, _⟩ := pushStoresBelowSp s (regByte r)
    obtain ⟨s', he, hsp, _, _, hmem, _⟩ := heffect r (regByte_toNat r)
    rw [pushAll_cons he] at h
    rw [List.length_cons] at hb
    have hsp : s'.sp = s.sp - 1 := hsp
    have hb' : rest.length ≤ (s'.sp - 1 - b).toNat := by
      rw [hsp]
      bv_omega
    have hne : b ≠ s.sp - 1 := by bv_omega
    exact (ih h hb').trans (hmem b hne)

/-- Settles O44, by induction on the pushed registers: the later pushes leave the first one's cell alone, and the later pops
bring `sp` back to it, so the last pop returns its value. -/
theorem pushesThenPopsReverse : Obligations.PushesThenPopsReverse := by
  intro regs
  induction regs with
  | nil => exact fun s c _ => ⟨s, s, rfl, rfl, rfl, rfl⟩
  | cons r rest ih =>
    intro s c hlen
    rw [List.length_cons] at hlen
    obtain ⟨_, hpushEffect, _⟩ := pushStoresBelowSp s (regByte r)
    obtain ⟨s', hes, hsp, _, hcell, _, _, hregs, _⟩ := hpushEffect r (regByte_toNat r)
    have hsp : s'.sp = s.sp - 1 := hsp
    obtain ⟨t, u, hpush, hpop, husp, humem⟩ := ih s' c (by omega)
    have hvalue : u.read u.sp = s.reg r := by
      have hkept : t.read s'.sp = s'.read s'.sp := pushAll_read hpush (by bv_omega)
      rw [husp, State.read, humem]
      exact hkept.trans (hsp ▸ hcell)
    have hlast := popValues_succ_last hpop (exec_pop_of_index (regByte_toNat c) u)
    refine ⟨t, ((u.setReg c (u.read u.sp)).setSp (u.sp + 1)).advance 2, (pushAll_cons hes rest).trans hpush,
      hlast.trans ?_, ?_, humem⟩
    · have hreg : (((u.setReg c (u.read u.sp)).setSp (u.sp + 1)).advance 2).reg c = s.reg r :=
        (u.reg_setReg_self c _).trans hvalue
      rw [hreg, funext hregs, List.map_cons, List.reverse_cons]
    · show u.sp + 1 = s.sp
      rw [husp, hsp]
      exact BitVec.sub_add_cancel s.sp 1

end Sys2Proof.Machine


/-! The host's side: reset, the load and when it has a result, the trace and the text image (50_external_interfaces.md,
70_reset_and_hazards.md). -/

namespace Sys2Proof.Machine

/-! ## Reset and load -/

theorem State.reset_reg (r : RegIdx) : State.reset.reg r = 0x00 := Vector.getElem_replicate r.isLt

/-- Settles O1: the fields of the reset state; its memory lists no cell. -/
theorem resetState : Obligations.ResetState :=
  ⟨fun _ => rfl, State.reset_reg, rfl, rfl, rfl, rfl, rfl⟩

theorem State.load_of_ne_reset {s : State} (h : s ≠ State.reset) (bytes : List Byte) : s.load bytes = none :=
  if_neg fun hload => h hload.1

/-- Settles O3: the length stands in the load's condition, whatever the state. -/
theorem oversizedImageRefused : Obligations.OversizedImageRefused := by
  intro s bytes h
  exact if_neg fun ⟨_, hlen⟩ => absurd hlen (Nat.not_le_of_gt h)

theorem exists_index_of_isRegByte {a : Byte} (h : isRegByte a = true) : ∃ r : RegIdx, a.toNat = r.val :=
  ⟨⟨a.toNat, Nat.lt_succ_of_le (isRegByte_true.mp h)⟩, rfl⟩

/-- Only PUSH and CALL have a store address (Table M1). -/
theorem storeAddr_eq_some {i : Instr} {s : State} {b : Byte} (h : i.storeAddr s = some b) :
    (∃ a, i = .push a ∧ b = s.sp - 1) ∨ ∃ a, i = .call a ∧ b = s.reg 7 - 1 := by
  cases i with
  | push a => exact .inl ⟨a, rfl, (Option.some.inj h).symm⟩
  | call a => exact .inr ⟨a, rfl, (Option.some.inj h).symm⟩
  | _ => cases h

/-- An instruction that ran into the reset state was fetched from a byte that held 0: it did not store there, since a PUSH to
its own byte would leave `pc` at 9, and a CALL the return address 2 in that byte. -/
theorem read_pc_of_exec_eq_reset {i : Instr} {s : State} (hw : i.wellFormed = true)
    (h : exec i s = .next State.reset) : s.read s.pc = 0x00 := by
  by_cases hstore : i.storeAddr s = some s.pc
  · obtain ⟨a, rfl, hpc⟩ | ⟨a, rfl, hpc⟩ := storeAddr_eq_some hstore
    · obtain ⟨r, ha⟩ := exists_index_of_isRegByte hw
      have ht := Host.Outcome.next.inj ((exec_push_of_index ha s).symm.trans h)
      have hsp : s.sp - 1 = 7 := congrArg State.sp ht
      have hnext : s.pc + 2 = 0 := congrArg State.pc ht
      rw [hpc, hsp] at hnext
      exact absurd hnext (by decide)
    · obtain ⟨r, ha⟩ := exists_index_of_isRegByte hw
      have ht := Host.Outcome.next.inj ((exec_call_of_index ha s).symm.trans h)
      have hptr : s.reg 7 - 1 = 0 := (callPush_reg s 7).symm.trans (congrArg (State.reg · 7) ht)
      have hcell : s.pc + 2 = 0 :=
        ((callPush_read s s.pc).trans (if_pos hpc)).symm.trans (congrArg (State.read · s.pc) ht)
      rw [hpc, hptr] at hcell
      exact absurd hcell (by decide)
  · exact (read_of_exec h hstore).symm

/-- No step of the machine leads to the reset state: 0 is none of the default opcode bytes, and a stopped engine is not
Running. -/
theorem ne_reset_of_step {s t : State} (h : step s = .next t) : t ≠ State.reset := by
  rintro rfl
  cases step_case h with
  | ran i hd hw he _ =>
    have hir : s.fetch.ir = 0x00 := read_pc_of_exec_eq_reset hw he
    have hzero : (0x00 : Byte) ∉ defaultOpcodes.toList := by decide
    have hrefused := decode_of_not_mem_toList (hir ▸ hzero) s.fetch.a s.fetch.b
    exact absurd (hd.symm.trans hrefused) (by simp)
  | halted _ ht => exact absurd (congrArg State.status ht) (by simp [State.reset])
  | regIndex _ _ _ ht | unsupported _ ht => exact absurd (congrArg State.status ht) (by simp [State.raise, State.reset])

/-- Settles O53: the load's condition, the step that never answers the reset state, and the launch of an image that fits. -/
theorem loadOnlyBeforeTheRun : Obligations.LoadOnlyBeforeTheRun :=
  ⟨fun _ bytes h => State.load_of_ne_reset h bytes,
    fun _ _ bytes h => State.load_of_ne_reset (ne_reset_of_step h) bytes,
    fun _ _ hlen => ⟨rfl, by simp [launch_of_length_le hlen]⟩⟩

/-! ## The trace -/

theorem State.x_toList (s : State) : s.x.toList = List.ofFn s.reg :=
  List.ext_getElem (by simp) fun _ _ _ => by simp only [Vector.getElem_toList, List.getElem_ofFn, State.reg]

/-- Settles O51: the slot at `pc` and the registers one by one. -/
theorem traceShowsTwelveFields : Obligations.TraceShowsTwelveFields := by
  intro s
  rw [State.trace, State.x_toList]
  simp [List.ofFn_succ, State.fetch_eq, slotBytes]

/-! ## The ALU -/

theorem toInt_emod_256 (v : Byte) : v.toInt % 256 = v.toNat := by
  have := v.isLt
  rw [BitVec.toInt_eq_toNat_cond]
  split <;> omega

/-- Settles O40: both results are the exact ones modulo 256, by `BitVec.toNat_add` and `BitVec.toNat_mul`; a byte read in two's
complement is the same number modulo 256. -/
theorem aluResultsAreExact : Obligations.AluResultsAreExact := by
  intro va vb
  have hsum : (aluSum va vb).toNat = (va.toNat + vb.toNat) % 256 := BitVec.toNat_add va vb
  have hproduct : (aluProduct va vb).toNat = (va.toNat * vb.toNat) % 256 := BitVec.toNat_mul va vb
  have hlt : va.toNat < 256 := va.isLt
  refine ⟨fun h => by omega, fun h => by omega, hproduct, BitVec.add_comm va vb, BitVec.mul_comm va vb,
    BitVec.add_zero va, BitVec.mul_one va, BitVec.mul_zero, fun k h1 hk => ?_, ?_, ?_⟩
  · rw [aluSum, byte_add_toNat]
    congr 1
    omega
  · rw [toInt_emod_256, hsum, Int.add_emod, toInt_emod_256, toInt_emod_256]
    norm_cast
  · rw [toInt_emod_256, hproduct, Int.mul_emod, toInt_emod_256, toInt_emod_256]
    norm_cast

/-! ## The text image -/

theorem parseImage_of_contributes {marker : Char} {line : List Char} (h : contributes marker line = true)
    (rest : List (List Char)) : parseImage marker (line :: rest) =
      (leadingBits 8 0 line).bind fun v => (parseImage marker rest).map (BitVec.ofNat 8 v :: ·) := by
  rw [parseImage, if_pos h]

theorem parseImage_of_not_contributes {marker : Char} {line : List Char} (h : contributes marker line = false)
    (rest : List (List Char)) : parseImage marker (line :: rest) = parseImage marker rest := by
  rw [parseImage, if_neg (by simp [h])]

/-- An image has one byte for each line that contributes. -/
theorem length_of_parseImage {marker : Char} {lines : List (List Char)} :
    ∀ {bytes : List Byte}, parseImage marker lines = some bytes →
      bytes.length = (lines.filter (contributes marker)).length := by
  induction lines with
  | nil =>
    intro bytes h
    rw [← Option.some.inj h]
    rfl
  | cons line rest ih =>
    intro bytes h
    cases hline : contributes marker line with
    | true =>
      rw [parseImage_of_contributes hline] at h
      obtain ⟨v, _, hv⟩ := Option.bind_eq_some_iff.mp h
      obtain ⟨bytes', hrest, rfl⟩ := Option.map_eq_some_iff.mp hv
      rw [List.filter_cons_of_pos hline, List.length_cons, List.length_cons, ih hrest]
    | false =>
      rw [parseImage_of_not_contributes hline] at h
      rw [List.filter_cons_of_neg (by simp [hline]), ih h]

theorem parseImage_filter (marker : Char) (lines : List (List Char)) :
    parseImage marker lines = parseImage marker (lines.filter (contributes marker)) := by
  induction lines with
  | nil => rfl
  | cons line rest ih =>
    cases hline : contributes marker line with
    | true => rw [List.filter_cons_of_pos hline, parseImage_of_contributes hline, parseImage_of_contributes hline, ih]
    | false => rw [List.filter_cons_of_neg (by simp [hline]), parseImage_of_not_contributes hline, ih]

/-- Settles O52, line by line in both clauses. -/
theorem commentsAndBlanksIgnored : Obligations.CommentsAndBlanksIgnored := fun marker lines =>
  ⟨parseImage_filter marker lines, fun _ => length_of_parseImage⟩

end Sys2Proof.Machine
